-- ==== Sys2Proof/Word.lean ====
section
/-! DEFINITION. The word types of the machine: 8-bit bytes and 16-bit words (`00_scope.md` R6, R8).
Every value is unsigned (R11), so the plain `BitVec` operations are the machine's arithmetic. -/

namespace Sys2Proof

/-- An 8-bit value: a general register, a memory cell, a timer (R6). -/
abbrev Byte := BitVec 8

/-- A 16-bit value: `I`, `pc`, a stack slot, an instruction word (R6, R90). -/
abbrev Word := BitVec 16

end Sys2Proof
end

