-- ==== Sys2Proof/Config.lean ====
section
/-! DEFINITION. What is fixed for the machine (`00_scope.md` R6) and the free values the outside world supplies
(`00_scope.md` R7, D16, D17). -/

namespace Sys2Proof.Config

/-- `MEM_SIZE`: addresses are 0 to 4095 (R6, `20_memory.md` R60). -/
abbrev memSize : Nat := 4096

/-- `STACK_SLOTS` (R6). -/
abbrev stackSlots : Nat := 16

/-- `NKEYS` (R6). -/
abbrev numKeys : Nat := 16

/-- `FB_W` (R6). -/
abbrev screenWidth : Nat := 64

/-- `FB_H` (R6). -/
abbrev screenHeight : Nat := 32

/-- `GLYPH_BASE` (R6). -/
abbrev glyphBase : Nat := 0x050

/-- The size of the glyph region: 16 glyphs of 5 bytes (R6). -/
abbrev glyphSize : Nat := 80

/-- `ROM_BASE`, and the value of `pc` after reset (R6, `10_state.md` R35). -/
abbrev romBase : Nat := 0x200

/-- Room for the ROM: 4096 - 0x200 (R6, `70_reset_and_hazards.md` R291). -/
abbrev romRoom : Nat := 3584

/-- DESIGN CHOICE (log 2, safe): the key flags the host presents to the `n`-th step whose inputs nothing has listed;
bit `k` is key `k` (D17: any value per step). No body: no proof can see it. -/
opaque freeKeys : Nat → BitVec 16

/-- DESIGN CHOICE (log 2, safe): the randomness source's byte for the `n`-th step whose inputs nothing has listed
(D16: any byte, under no law). No body: no proof can see it. -/
opaque freeRnd : Nat → Byte

end Sys2Proof.Config
end

