-- ==== Sys2Proof/Syntax.lean ====
section
/-! DEFINITION. The instruction set as data: one constructor per row of the opcode table (`30_encoding.md` R96), operands
cut as R92 says, and the reasons a word or a byte sequence is not an instruction. -/

namespace Sys2Proof

/-- A register selector, `x` or `y`: names one of V0 to VF (R20, R92). -/
abbrev Reg := Fin 16

/-- A 12-bit address immediate `nnn` (R92). -/
abbrev Addr12 := BitVec 12

/-- The 34 instructions, in the order of the table (R96). -/
inductive Instr where
  | clear                                  -- 00E0
  | ret                                    -- 00EE
  | jump (nnn : Addr12)                    -- 1nnn
  | call (nnn : Addr12)                    -- 2nnn
  | skipEqImm (x : Reg) (kk : Byte)        -- 3xkk
  | skipNeImm (x : Reg) (kk : Byte)        -- 4xkk
  | skipEqReg (x y : Reg)                  -- 5xy0
  | loadImm (x : Reg) (kk : Byte)          -- 6xkk
  | addImm (x : Reg) (kk : Byte)           -- 7xkk
  | copy (x y : Reg)                       -- 8xy0
  | or (x y : Reg)                         -- 8xy1
  | and (x y : Reg)                        -- 8xy2
  | xor (x y : Reg)                        -- 8xy3
  | addReg (x y : Reg)                     -- 8xy4
  | sub (x y : Reg)                        -- 8xy5
  | shr (x y : Reg)                        -- 8xy6, y encoded and ignored (R99)
  | subn (x y : Reg)                       -- 8xy7
  | shl (x y : Reg)                        -- 8xyE, y encoded and ignored (R99)
  | skipNeReg (x y : Reg)                  -- 9xy0
  | loadIndex (nnn : Addr12)               -- Annn
  | jumpOffset (nnn : Addr12)              -- Bnnn
  | randAnd (x : Reg) (kk : Byte)          -- Cxkk
  | draw (x y : Reg) (n : BitVec 4)        -- Dxyn
  | skipIfPressed (x : Reg)                -- Ex9E
  | skipIfNotPressed (x : Reg)             -- ExA1
  | readDelay (x : Reg)                    -- Fx07
  | waitKey (x : Reg)                      -- Fx0A
  | setDelay (x : Reg)                     -- Fx15
  | setSound (x : Reg)                     -- Fx18
  | addIndex (x : Reg)                     -- Fx1E
  | glyphAddr (x : Reg)                    -- Fx29
  | toBcd (x : Reg)                        -- Fx33
  | storeRegs (x : Reg)                    -- Fx55
  | loadRegs (x : Reg)                     -- Fx65
deriving DecidableEq, Repr

/-- The spec's name of an instruction (R96, R103). -/
def Instr.mnemonic : Instr → String
  | .clear => "clear"
  | .ret => "return"
  | .jump _ => "jump"
  | .call _ => "call"
  | .skipEqImm _ _ => "skip-eq-imm"
  | .skipNeImm _ _ => "skip-ne-imm"
  | .skipEqReg _ _ => "skip-eq-reg"
  | .loadImm _ _ => "load-imm"
  | .addImm _ _ => "add-imm"
  | .copy _ _ => "copy"
  | .or _ _ => "or"
  | .and _ _ => "and"
  | .xor _ _ => "xor"
  | .addReg _ _ => "add-reg"
  | .sub _ _ => "sub"
  | .shr _ _ => "shr"
  | .subn _ _ => "subn"
  | .shl _ _ => "shl"
  | .skipNeReg _ _ => "skip-ne-reg"
  | .loadIndex _ => "load-index"
  | .jumpOffset _ => "jump-offset"
  | .randAnd _ _ => "rand-and"
  | .draw _ _ _ => "draw"
  | .skipIfPressed _ => "skip-if-pressed"
  | .skipIfNotPressed _ => "skip-if-not-pressed"
  | .readDelay _ => "read-delay"
  | .waitKey _ => "wait-key"
  | .setDelay _ => "set-delay"
  | .setSound _ => "set-sound"
  | .addIndex _ => "add-index"
  | .glyphAddr _ => "glyph-addr"
  | .toBcd _ => "to-bcd"
  | .storeRegs _ => "store-regs"
  | .loadRegs _ => "load-regs"

/-- Why bytes are not an instruction. Raised by the decoder only. -/
inductive DecodeError where
  /-- The word matches no row of the table (R97, R98). The step turns it into the machine's own
  `UnknownOpcodeError` (`60_exceptions.md` R253). -/
  | unknownOpcode (op : Word)
  /-- Fewer than the two bytes of an instruction (R90). Never met by a step, which fetches two bytes or raises. -/
  | truncated
deriving DecidableEq, Repr

/-- One row of the opcode table as R96 prints it: a word `w` selects the row iff `w &&& mask = pattern` (the spec's `match`). -/
structure OpcodeRow where
  mnemonic : String
  pattern : Word
  mask : Word
deriving DecidableEq, Repr

end Sys2Proof
end

