-- ==== Sys2Proof/WellFormed.lean ====
section
/-! DEFINITION. Well-formedness: of an instruction (its operand types carry every bound the encoding has, R92) and of the
ROM a reset is given (`70_reset_and_hazards.md` R291). -/

namespace Sys2Proof

/-- Every term of `Instr` is well formed: a selector is a `Fin 16`, an immediate has the width of its field, and R99 and R100
make every operand value legal (`x = y`, `x = 0xF`, `n = 0` and any ignored `y` included). So there is no check to fail; the
function keeps the arms apart so that a constructor added later has to be thought about. -/
def Instr.wellFormed : Instr → Bool
  | .clear | .ret => true
  | .jump _ | .call _ | .loadIndex _ | .jumpOffset _ => true
  | .skipEqImm _ _ | .skipNeImm _ _ | .loadImm _ _ | .addImm _ _ | .randAnd _ _ => true
  | .skipEqReg _ _ | .skipNeReg _ _ | .copy _ _ | .or _ _ | .and _ _ | .xor _ _ => true
  | .addReg _ _ | .sub _ _ | .shr _ _ | .subn _ _ | .shl _ _ => true
  | .draw _ _ _ => true
  | .skipIfPressed _ | .skipIfNotPressed _ | .readDelay _ | .waitKey _ | .setDelay _ | .setSound _ => true
  | .addIndex _ | .glyphAddr _ | .toBcd _ | .storeRegs _ | .loadRegs _ => true

/-- R291: a ROM is valid iff it is not empty and fits above address 0x200. `L` need not be even, and the content is not
checked. -/
def romWellFormed (rom : List Byte) : Bool :=
  decide (1 ≤ rom.length) && decide (rom.length ≤ Config.romRoom)

end Sys2Proof
end

