-- ==== Sys2Proof/Decode.lean ====
section
/-! DEFINITION. Decoding and encoding (`30_encoding.md`): field cuts (R92), strict decode (R95 to R98) in the two-level shape
of R94, the encoder, the table of R96 as data, and the reading of one word laid out in memory as bytes (R90). -/

namespace Sys2Proof

/-! ### Fields (R92) -/

/-- `t` = op[15:12], the top nibble. -/
def fieldT (op : Word) : BitVec 4 := op.extractLsb' 12 4

/-- `x` = op[11:8]. -/
def fieldX (op : Word) : Reg := (op.extractLsb' 8 4).toFin

/-- `y` = op[7:4]. -/
def fieldY (op : Word) : Reg := (op.extractLsb' 4 4).toFin

/-- `n` = op[3:0]. -/
def fieldN (op : Word) : BitVec 4 := op.extractLsb' 0 4

/-- `kk` = op[7:0]. -/
def fieldKk (op : Word) : Byte := op.extractLsb' 0 8

/-- `nnn` = op[11:0]. -/
def fieldNnn (op : Word) : Addr12 := op.extractLsb' 0 12

/-! ### Decode -/

/-- Top nibble 0: the whole rest of the word is the key (R94, R95). -/
def decodeGroup0 (op : Word) : Option Instr :=
  match (fieldNnn op).toNat with
  | 0x0E0 => some .clear
  | 0x0EE => some .ret
  | _ => none

/-- Top nibble 8: keyed on the low nibble (R94). -/
def decodeGroup8 (op : Word) : Option Instr :=
  match (fieldN op).toNat with
  | 0x0 => some (.copy (fieldX op) (fieldY op))
  | 0x1 => some (.or (fieldX op) (fieldY op))
  | 0x2 => some (.and (fieldX op) (fieldY op))
  | 0x3 => some (.xor (fieldX op) (fieldY op))
  | 0x4 => some (.addReg (fieldX op) (fieldY op))
  | 0x5 => some (.sub (fieldX op) (fieldY op))
  | 0x6 => some (.shr (fieldX op) (fieldY op))
  | 0x7 => some (.subn (fieldX op) (fieldY op))
  | 0xE => some (.shl (fieldX op) (fieldY op))
  | _ => none

/-- Top nibble E: keyed on the low byte (R94). -/
def decodeGroupE (op : Word) : Option Instr :=
  match (fieldKk op).toNat with
  | 0x9E => some (.skipIfPressed (fieldX op))
  | 0xA1 => some (.skipIfNotPressed (fieldX op))
  | _ => none

/-- Top nibble F: keyed on the low byte (R94). -/
def decodeGroupF (op : Word) : Option Instr :=
  match (fieldKk op).toNat with
  | 0x07 => some (.readDelay (fieldX op))
  | 0x0A => some (.waitKey (fieldX op))
  | 0x15 => some (.setDelay (fieldX op))
  | 0x18 => some (.setSound (fieldX op))
  | 0x1E => some (.addIndex (fieldX op))
  | 0x29 => some (.glyphAddr (fieldX op))
  | 0x33 => some (.toBcd (fieldX op))
  | 0x55 => some (.storeRegs (fieldX op))
  | 0x65 => some (.loadRegs (fieldX op))
  | _ => none

/-- The primary dispatch on the top nibble (R94), strict as R95 says: `5xyN` and `9xyN` with `N` not 0 select nothing. -/
def decodeInstr (op : Word) : Option Instr :=
  match (fieldT op).toNat with
  | 0x0 => decodeGroup0 op
  | 0x1 => some (.jump (fieldNnn op))
  | 0x2 => some (.call (fieldNnn op))
  | 0x3 => some (.skipEqImm (fieldX op) (fieldKk op))
  | 0x4 => some (.skipNeImm (fieldX op) (fieldKk op))
  | 0x5 => if fieldN op = 0 then some (.skipEqReg (fieldX op) (fieldY op)) else none
  | 0x6 => some (.loadImm (fieldX op) (fieldKk op))
  | 0x7 => some (.addImm (fieldX op) (fieldKk op))
  | 0x8 => decodeGroup8 op
  | 0x9 => if fieldN op = 0 then some (.skipNeReg (fieldX op) (fieldY op)) else none
  | 0xA => some (.loadIndex (fieldNnn op))
  | 0xB => some (.jumpOffset (fieldNnn op))
  | 0xC => some (.randAnd (fieldX op) (fieldKk op))
  | 0xD => some (.draw (fieldX op) (fieldY op) (fieldN op))
  | 0xE => decodeGroupE op
  | _ => decodeGroupF op

/-- R97: total on all words; a word that matches no row is rejected by name. -/
def decodeWord (op : Word) : Except DecodeError Instr :=
  match decodeInstr op with
  | some i => .ok i
  | none => .error (.unknownOpcode op)

/-- R90, `20_memory.md` R62: the word of two bytes in memory order, the first (lower address) the high byte. -/
def wordOfBytes (hi lo : Byte) : Word := hi ++ lo

/-- The two bytes of a word in memory order (R90). -/
def bytesOfWord (op : Word) : List Byte := [op.extractLsb' 8 8, op.extractLsb' 0 8]

/-- Decoding from a byte sequence: the instruction at its head and the bytes after it. -/
def decodeBytes : List Byte → Except DecodeError (Instr × List Byte)
  | hi :: lo :: rest =>
    match decodeWord (wordOfBytes hi lo) with
    | .ok i => .ok (i, rest)
    | .error e => .error e
  | _ => .error .truncated

/-! ### Encode: the formats of R91 and the fixed digits of R96 -/

/-- Format NNN. -/
def wordNNN (t : BitVec 4) (nnn : Addr12) : Word := t ++ nnn

/-- Format XKK, and format X with the low byte fixed. -/
def wordXKK (t : BitVec 4) (x : Reg) (kk : Byte) : Word := t ++ (BitVec.ofFin (w := 4) x ++ kk)

/-- Format XYN, and format XY with the low nibble fixed. -/
def wordXYN (t : BitVec 4) (x y : Reg) (n : BitVec 4) : Word :=
  t ++ (BitVec.ofFin (w := 4) x ++ (BitVec.ofFin (w := 4) y ++ n))

/-- The word of an instruction (R91, R96). -/
def encode : Instr → Word
  | .clear => 0x00E0
  | .ret => 0x00EE
  | .jump nnn => wordNNN 0x1 nnn
  | .call nnn => wordNNN 0x2 nnn
  | .skipEqImm x kk => wordXKK 0x3 x kk
  | .skipNeImm x kk => wordXKK 0x4 x kk
  | .skipEqReg x y => wordXYN 0x5 x y 0x0
  | .loadImm x kk => wordXKK 0x6 x kk
  | .addImm x kk => wordXKK 0x7 x kk
  | .copy x y => wordXYN 0x8 x y 0x0
  | .or x y => wordXYN 0x8 x y 0x1
  | .and x y => wordXYN 0x8 x y 0x2
  | .xor x y => wordXYN 0x8 x y 0x3
  | .addReg x y => wordXYN 0x8 x y 0x4
  | .sub x y => wordXYN 0x8 x y 0x5
  | .shr x y => wordXYN 0x8 x y 0x6
  | .subn x y => wordXYN 0x8 x y 0x7
  | .shl x y => wordXYN 0x8 x y 0xE
  | .skipNeReg x y => wordXYN 0x9 x y 0x0
  | .loadIndex nnn => wordNNN 0xA nnn
  | .jumpOffset nnn => wordNNN 0xB nnn
  | .randAnd x kk => wordXKK 0xC x kk
  | .draw x y n => wordXYN 0xD x y n
  | .skipIfPressed x => wordXKK 0xE x 0x9E
  | .skipIfNotPressed x => wordXKK 0xE x 0xA1
  | .readDelay x => wordXKK 0xF x 0x07
  | .waitKey x => wordXKK 0xF x 0x0A
  | .setDelay x => wordXKK 0xF x 0x15
  | .setSound x => wordXKK 0xF x 0x18
  | .addIndex x => wordXKK 0xF x 0x1E
  | .glyphAddr x => wordXKK 0xF x 0x29
  | .toBcd x => wordXKK 0xF x 0x33
  | .storeRegs x => wordXKK 0xF x 0x55
  | .loadRegs x => wordXKK 0xF x 0x65

/-- The bytes of an instruction in memory order (R90). -/
def encodeBytes (i : Instr) : List Byte := bytesOfWord (encode i)

/-! ### The opcode table as R96 prints it -/

/-- Rows 1 to 18 of R96. -/
def opcodeRowsA : List OpcodeRow :=
  [⟨"clear", 0x00E0, 0xFFFF⟩, ⟨"return", 0x00EE, 0xFFFF⟩, ⟨"jump", 0x1000, 0xF000⟩, ⟨"call", 0x2000, 0xF000⟩,
   ⟨"skip-eq-imm", 0x3000, 0xF000⟩, ⟨"skip-ne-imm", 0x4000, 0xF000⟩, ⟨"skip-eq-reg", 0x5000, 0xF00F⟩,
   ⟨"load-imm", 0x6000, 0xF000⟩, ⟨"add-imm", 0x7000, 0xF000⟩, ⟨"copy", 0x8000, 0xF00F⟩, ⟨"or", 0x8001, 0xF00F⟩,
   ⟨"and", 0x8002, 0xF00F⟩, ⟨"xor", 0x8003, 0xF00F⟩, ⟨"add-reg", 0x8004, 0xF00F⟩, ⟨"sub", 0x8005, 0xF00F⟩,
   ⟨"shr", 0x8006, 0xF00F⟩, ⟨"subn", 0x8007, 0xF00F⟩, ⟨"shl", 0x800E, 0xF00F⟩]

/-- Rows 19 to 34 of R96. -/
def opcodeRowsB : List OpcodeRow :=
  [⟨"skip-ne-reg", 0x9000, 0xF00F⟩, ⟨"load-index", 0xA000, 0xF000⟩, ⟨"jump-offset", 0xB000, 0xF000⟩,
   ⟨"rand-and", 0xC000, 0xF000⟩, ⟨"draw", 0xD000, 0xF000⟩, ⟨"skip-if-pressed", 0xE09E, 0xF0FF⟩,
   ⟨"skip-if-not-pressed", 0xE0A1, 0xF0FF⟩, ⟨"read-delay", 0xF007, 0xF0FF⟩, ⟨"wait-key", 0xF00A, 0xF0FF⟩,
   ⟨"set-delay", 0xF015, 0xF0FF⟩, ⟨"set-sound", 0xF018, 0xF0FF⟩, ⟨"add-index", 0xF01E, 0xF0FF⟩,
   ⟨"glyph-addr", 0xF029, 0xF0FF⟩, ⟨"to-bcd", 0xF033, 0xF0FF⟩, ⟨"store-regs", 0xF055, 0xF0FF⟩,
   ⟨"load-regs", 0xF065, 0xF0FF⟩]

/-- The 34 rows of R96, in its order. -/
def opcodeTable : List OpcodeRow := opcodeRowsA ++ opcodeRowsB

/-- R95: the word selects the row. -/
def OpcodeRow.selects (row : OpcodeRow) (w : Word) : Bool := (w &&& row.mask) == row.pattern

/-! ### One word of the table, as the host numbers it -/

/-- The instruction word of the table word `w` of `nbits` bits: bits above `nbits` are 0, and an instruction has 16 (R90). -/
def tableWord (nbits w : Nat) : Word := BitVec.ofNat 16 (w % 2 ^ nbits)

/-- The bytes of a table word as the hardware stores them: high byte at the lower address (R90). -/
def tableBytes (nbits w : Nat) : List Byte := bytesOfWord (tableWord nbits w)

/-- The instruction the decoder reads from a table word laid out in memory, if it is one. -/
def decodeTableWord (nbits w : Nat) : Option Instr :=
  match decodeBytes (tableBytes nbits w) with
  | .ok (i, []) => some i
  | _ => none

end Sys2Proof
end

