-- ==== Sys2Proof/Machine/Glyphs.lean ====
section
/-! DEFINITION. The default value of the parameter `GLYPHS[0..79]` (`20_memory.md` R65). -/

namespace Sys2Proof.Machine

/-- Glyphs 0 to 7, one row of the table each. -/
def glyphsLow : List Byte :=
  [0xF0, 0x90, 0x90, 0x90, 0xF0] ++
  [0x20, 0x60, 0x20, 0x20, 0x70] ++
  [0xF0, 0x10, 0xF0, 0x80, 0xF0] ++
  [0xF0, 0x10, 0xF0, 0x10, 0xF0] ++
  [0x90, 0x90, 0xF0, 0x10, 0x10] ++
  [0xF0, 0x80, 0xF0, 0x10, 0xF0] ++
  [0xF0, 0x80, 0xF0, 0x90, 0xF0] ++
  [0xF0, 0x10, 0x20, 0x40, 0x40]

/-- Glyphs 8 to F. -/
def glyphsHigh : List Byte :=
  [0xF0, 0x90, 0xF0, 0x90, 0xF0] ++
  [0xF0, 0x90, 0xF0, 0x10, 0xF0] ++
  [0xF0, 0x90, 0xF0, 0x90, 0x90] ++
  [0xE0, 0x90, 0xE0, 0x90, 0xE0] ++
  [0xF0, 0x80, 0x80, 0x80, 0xF0] ++
  [0xE0, 0x90, 0x90, 0x90, 0xE0] ++
  [0xF0, 0x80, 0xF0, 0x80, 0xF0] ++
  [0xF0, 0x80, 0xF0, 0x80, 0x80]

/-- PRESUMED (log 4, unsafe for a claim that leans on a glyph's shape): the table the spec gives as the default of its open
parameter `GLYPHS`, from general knowledge and in no source (R65, D6, U9, G1). -/
def defaultGlyphs : List Byte := glyphsLow ++ glyphsHigh

end Sys2Proof.Machine
end

