-- ==== Sys2Proof/Machine/State.lean ====
section
/-! DEFINITION. The state of the machine (`10_state.md`): every piece of state the spec gives the core, and the step's inputs
as plain data; the outcome types; the state after reset. -/

namespace Sys2Proof.Machine

/-- The frame buffer (R28): 32 rows, each of 64 pixels; `fb[r][c]` is `FB[r][c]`, `true` = on. -/
abbrev FrameBuffer := Vector (Vector Bool 64) 32

/-- All 2048 pixels off (R34, R211). -/
def FrameBuffer.blank : FrameBuffer := Vector.replicate 32 (Vector.replicate 64 false)

/-- `MEM` (R29): the cells that differ from what an unlisted address reads as, addresses strictly rising. -/
abbrev Memory := List Host.Cell

/-- The four fault kinds of the machine (`60_exceptions.md` R250). They are values of the `FAULT` register, not ways to leave
the model: raising one is a next state (R256, log 1). -/
inductive FaultKind where
  /-- Raised by a reset with an empty or oversized ROM (R252). -/
  | loadError
  /-- Raised by decode: the word matches no row (R253). -/
  | unknownOpcode
  /-- Raised by `call` with 16 calls outstanding and by `return` with none (R254). -/
  | stackFault
  /-- Raised by fetch, `draw`, `to-bcd`, `store-regs`, `load-regs` and the two key skips (R255). -/
  | outOfBounds
deriving DecidableEq, Repr

/-- What `FAULT` holds after a fault: the kind and one information word (R30, R251). -/
structure FaultRecord where
  kind : FaultKind
  info : Word
deriving DecidableEq, Repr

/-- The inputs of one step (`40_cycle.md` R126): the key flags, bit `k` = key `k`, and the randomness source's byte. -/
structure StepInput where
  keys : BitVec 16
  rnd : Byte
deriving DecidableEq, Repr

/-- The machine. The first ten fields are the spec's own state; the last four hold the step's inputs (log 2). -/
structure State where
  /-- `V[0]` to `V[15]` (R20); `V[15]` is the flag register `VF` (R21). -/
  v : Vector Byte 16
  /-- `I` (R22). -/
  index : Word
  /-- `pc` (R23). -/
  pc : Word
  /-- `STACK[0]` to `STACK[15]` (R24). -/
  stack : Vector Word 16
  /-- `SP`, 0 to 16 (R24). -/
  sp : Fin 17
  /-- `DT`, the delay timer (R26). -/
  dt : Byte
  /-- `ST`, the sound timer (R26). -/
  st : Byte
  /-- `FB` (R28). -/
  fb : FrameBuffer
  /-- `MEM` (R29). -/
  mem : Memory
  /-- `FAULT`; `none` is the spec's none (R30). -/
  fault : Option FaultRecord
  /-- `keys` as the coming step samples them (R27, R126): an input, not core state. -/
  keys : BitVec 16
  /-- `rnd` as the randomness source supplies it to the coming step (R126, R231): an input, not core state. -/
  rnd : Byte
  /-- DESIGN CHOICE (log 2): inputs already settled for the steps after the coming one, in order. -/
  pending : List StepInput
  /-- DESIGN CHOICE (log 2): how many steps have drawn their inputs from the free values of `Config`. -/
  inputNo : Nat
deriving DecidableEq, Repr

/-- Reasons for the model itself to stop where the spec would not let it go on. There are none: every fault the spec
describes is taken as a next state with `FAULT` written (`60_exceptions.md` R256, R257, log 1), and no case of the spec is
left without an effect. Nobody raises it; that is safe. -/
inductive Fault where
deriving DecidableEq, Repr

/-- Reasons for an instruction to have no meaning. -/
inductive Refusal where
  /-- Raised only by an arm of `exec` for an instruction that has no meaning yet; no arm is left so. Safe: nothing is
  claimed of such an instruction. -/
  | notModelled (mnemonic : String)
deriving DecidableEq, Repr

/-- The state right after reset (`10_state.md` R34, `70_reset_and_hazards.md` R290), with a ROM that leaves every cell of the
ROM region 0x00, so that memory lists nothing (log 6). The four input fields have no reset value in the spec: DESIGN CHOICE,
no key pressed and `rnd` 0, the convention of `95_test_vectors.md` (log 3). -/
def State.reset : State where
  v := Vector.replicate 16 0
  index := 0
  pc := 0x0200
  stack := Vector.replicate 16 0
  sp := 0
  dt := 0
  st := 0
  fb := FrameBuffer.blank
  mem := []
  fault := none
  keys := 0
  rnd := 0
  pending := []
  inputNo := 0

end Sys2Proof.Machine
end

