-- ==== Sys2Proof/Machine/Ops.lean ====
section
/-! DEFINITION. The named operations every meaning is written over: memory, registers, the frame buffer, the program counter,
the call stack, raising a fault, and the parts of the step around Execute (`40_cycle.md` R127). -/

namespace Sys2Proof.Machine

/-- What an instruction or a step answers. -/
abbrev Result := Host.Outcome State Fault Refusal

/-! ### Memory (`20_memory.md`) -/

/-- What an address that is not listed reads as: the reset image without a ROM (`70_reset_and_hazards.md` R292), that is the
glyph table in its region and 0x00 everywhere else (`10_state.md` R37). -/
def Memory.unlisted (a : Nat) : Byte :=
  if Config.glyphBase ≤ a ∧ a < Config.glyphBase + Config.glyphSize then defaultGlyphs.getD (a - Config.glyphBase) 0 else 0

/-- The byte at an address (R60, R67). Called only after the bounds check of R68. -/
def Memory.read : Memory → Nat → Byte
  | [], a => Memory.unlisted a
  | (b, w) :: rest, a => if b = a then w else Memory.read rest a

/-- Insert a cell at its place in rising order. -/
def Memory.insertCell (a : Nat) (val : Byte) : Memory → Memory
  | [] => [(a, val)]
  | (b, w) :: rest => if a < b then (a, val) :: (b, w) :: rest else (b, w) :: Memory.insertCell a val rest

/-- The memory with no cell listed for an address. -/
def Memory.erase (m : Memory) (a : Nat) : Memory := m.filter (fun c => c.1 != a)

/-- Store a byte (R66, R67). An address of 4096 or more has no cell, so nothing is stored there (R68); a byte equal to what
the unlisted address reads as is not listed. -/
def Memory.write (m : Memory) (a : Nat) (val : Byte) : Memory :=
  if a < Config.memSize then
    if val = Memory.unlisted a then m.erase a else Memory.insertCell a val (m.erase a)
  else m

/-- Store bytes at ascending addresses from `a`. -/
def Memory.load (m : Memory) (a : Nat) : List Byte → Memory
  | [] => m
  | b :: bs => Memory.load (m.write a b) (a + 1) bs

/-- The canonical form from an address on: strictly rising addresses of cells that exist, none listed for nothing. -/
def Memory.wfFrom (lo : Nat) : Memory → Bool
  | [] => true
  | (a, val) :: rest => decide (lo ≤ a) && decide (a < Config.memSize) && val != Memory.unlisted a && Memory.wfFrom (a + 1) rest

/-- The canonical form of a memory: equal memories are equal lists. -/
def Memory.wf (m : Memory) : Bool := Memory.wfFrom 0 m

/-! ### Registers (`10_state.md`) -/

/-- `VF` is `V[15]` (R21). -/
def flagReg : Reg := 15

/-- `V[r]` (R9, R20). -/
def State.getV (s : State) (r : Reg) : Byte := s.v[r.val]

/-- `V[r] <- b` (R9, R20). -/
def State.setV (s : State) (r : Reg) (b : Byte) : State := { s with v := s.v.set r.val b }

/-- `I <- w` (R22). -/
def State.setIndex (s : State) (w : Word) : State := { s with index := w }

/-- `pc <- w` (R23). -/
def State.setPc (s : State) (w : Word) : State := { s with pc := w }

/-- `pc <- p + 2` (`40_cycle.md` R125). -/
def State.advance (s : State) : State := s.setPc (s.pc + 2)

/-- A skip: `p + 4` if the condition holds, else `p + 2` (R125). -/
def State.skipIf (s : State) (c : Bool) : State := s.setPc (if c then s.pc + 4 else s.pc + 2)

/-- `DT <- b` (R26). -/
def State.setDt (s : State) (b : Byte) : State := { s with dt := b }

/-- `ST <- b` (R26). -/
def State.setSt (s : State) (b : Byte) : State := { s with st := b }

/-- The byte at a memory address. -/
def State.readByte (s : State) (a : Nat) : Byte := s.mem.read a

/-- Store a byte at a memory address. -/
def State.writeByte (s : State) (a : Nat) (b : Byte) : State := { s with mem := s.mem.write a b }

/-- Key flag `k` of this step (R27, R9). -/
def State.keyDown (s : State) (k : Nat) : Bool := s.keys.getLsbD k

/-! ### The frame buffer (`44_display.md` R210) -/

/-- `FB[r][c]`. -/
def FrameBuffer.pixel (f : FrameBuffer) (r : Fin 32) (c : Fin 64) : Bool := f[r.val][c.val]

/-- `FB[r][c] <- FB[r][c] ^ 1`. -/
def FrameBuffer.flip (f : FrameBuffer) (r : Fin 32) (c : Fin 64) : FrameBuffer :=
  f.set r.val (f[r.val].set c.val (!f.pixel r c))

/-- The pixel of a state's frame buffer. -/
def State.pixel (s : State) (r : Fin 32) (c : Fin 64) : Bool := s.fb.pixel r c

/-- The output port `FB`: 2048 pixels, row-major, the index of `FB[r][c]` is `64*r + c` (R28, R126). -/
def State.screenPort (s : State) : List Bool := s.fb.toList.flatMap Vector.toList

/-! ### Faults (`60_exceptions.md`) -/

/-- An information word, saturated at 0xFFFF (R251). -/
def saturate16 (n : Nat) : Word := BitVec.ofNat 16 (min n 0xFFFF)

/-- TAKING AN EXCEPTION: `raise K(info)` (R256). `FAULT` is set and nothing else changes: there is no handler and no saved
state besides `pc`, which is left at the faulting instruction. There is no return from a fault (R258); `State.resetRom` is the
only way out (R257). -/
def State.raise (s : State) (k : FaultKind) (info : Nat) : State := { s with fault := some ⟨k, saturate16 info⟩ }

/-- The code of a fault kind (R251). -/
def FaultKind.code : FaultKind → BitVec 3
  | .loadError => 1
  | .unknownOpcode => 2
  | .stackFault => 3
  | .outOfBounds => 4

/-- The output port `FAULT`: kind 2:0 and info 15:0, both 0 while there is no fault (R33, R126, R251). -/
def State.faultPort (s : State) : BitVec 3 × Word :=
  match s.fault with
  | none => (0, 0)
  | some f => (f.kind.code, f.info)

/-- The bounds check of an instruction that accesses memory up to the address `top` (R68): raises before any effect. -/
def State.inBounds (s : State) (top : Nat) (k : State → State) : State :=
  if Config.memSize ≤ top then s.raise .outOfBounds top else k s

/-! ### The call stack (`10_state.md` R25) -/

/-- `push(a)`, then go on with the state after it; overflow raises `StackFault(16)`. -/
def State.push (s : State) (a : Word) (k : State → State) : State :=
  if h : s.sp.val < 16 then
    k { s with stack := s.stack.set s.sp.val a, sp := ⟨s.sp.val + 1, by omega⟩ }
  else s.raise .stackFault s.sp.val

/-- `pop()`, then go on with the value and the state after it; underflow raises `StackFault(0)`. The slot keeps its content. -/
def State.pop (s : State) (k : Word → State → State) : State :=
  if h : 0 < s.sp.val then
    k (s.stack[s.sp.val - 1]'(by omega)) { s with sp := ⟨s.sp.val - 1, by omega⟩ }
  else s.raise .stackFault s.sp.val

/-! ### The parts of the step around Execute (`40_cycle.md`) -/

/-- Fetch (R121): the big-endian word at `pc`, or `OutOfBoundsAccess(pc)` when the second byte does not exist. -/
def State.fetch (s : State) : Except FaultRecord Word :=
  if Config.memSize ≤ s.pc.toNat + 1 then .error ⟨.outOfBounds, s.pc⟩
  else .ok (wordOfBytes (s.readByte s.pc.toNat) (s.readByte (s.pc.toNat + 1)))

/-- Fetch, then Decode (R121, R122), or the fault the earlier of them raises (R259). The decoder's only other reason,
`truncated`, cannot come from a fetched word. -/
def State.nextInstr (s : State) : Except FaultRecord Instr :=
  match s.fetch with
  | .error f => .error f
  | .ok op =>
    match decodeWord op with
    | .ok i => .ok i
    | .error _ => .error ⟨.unknownOpcode, op⟩

/-- One count of a timer: down by 1 unless 0 (R124, R26). -/
def countDown (t : Byte) : Byte := if t = 0 then 0 else t - 1

/-- `Tick()` (R124). -/
def State.tick (s : State) : State := { s with dt := countDown s.dt, st := countDown s.st }

/-- DESIGN CHOICE (log 2, safe): what the host presents to the next step: the next listed input, or free values (D16, D17). -/
def State.nextInput (s : State) : State :=
  match s.pending with
  | i :: rest => { s with keys := i.keys, rnd := i.rnd, pending := rest }
  | [] => { s with keys := Config.freeKeys s.inputNo, rnd := Config.freeRnd s.inputNo, inputNo := s.inputNo + 1 }

/-- The end of a step after Execute: the tick, unless Execute raised a fault, which commits nothing else (R127, R128). -/
def State.endStep (s : State) : State :=
  match s.fault with
  | some _ => s
  | none => s.tick.nextInput

/-- The end of a step, on an outcome of Execute. -/
def endStepOf : Result → Result
  | .next s => .next s.endStep
  | .fault r => .fault r
  | .refused r => .refused r

/-! ### Reset (`70_reset_and_hazards.md`) -/

/-- `reset(ROM)` with the parameter `GLYPHS` (R290, R292, `10_state.md` R34): an action of the host, not a step (log 7). A ROM
that is empty or too long leaves `FAULT = (LoadError, L)` and loads no ROM byte (`60_exceptions.md` R252). -/
def State.resetRom (glyphs rom : List Byte) : State :=
  let withGlyphs := Memory.load [] Config.glyphBase (glyphs.take Config.glyphSize)
  if romWellFormed rom then { State.reset with mem := Memory.load withGlyphs Config.romBase rom }
  else { State.reset with mem := withGlyphs }.raise .loadError rom.length

/-! ### Placing one instruction -/

/-- The state with a word stored where the next fetch reads it. A faulted core fetches nothing, so `FAULT` is cleared, as the
reset that loads a program would (log 6). -/
def State.placeWord (s : State) (op : Word) : State :=
  { s with mem := s.mem.load s.pc.toNat (bytesOfWord op), fault := none }

end Sys2Proof.Machine
end

