-- ==== Sys2Proof/Machine/Flags.lean ====
section
/-! DEFINITION. Every flag computation of the machine (`10_state.md` R21): the byte each flag-writing instruction leaves in
`VF`. -/

namespace Sys2Proof.Machine

/-- A flag as the register holds it: 1 or 0. -/
def flagByte (c : Bool) : Byte := if c then 1 else 0

/-- Carry out of bit 7: the 9-bit sum exceeds 255 (R166). -/
def carryFlag (a b : Byte) : Byte := flagByte (decide (255 < a.toNat + b.toNat))

/-- No borrow in `a - b`: `a >= b`, unsigned (R167, R169, R171). -/
def noBorrowFlag (a b : Byte) : Byte := flagByte (decide (b.toNat ≤ a.toNat))

/-- The bit a right shift moves out (R168). -/
def shiftRightFlag (a : Byte) : Byte := flagByte (a.getLsbD 0)

/-- The bit a left shift moves out (R170). -/
def shiftLeftFlag (a : Byte) : Byte := flagByte (a.getLsbD 7)

/-- `VF <- f` (R21). -/
def State.setFlag (s : State) (f : Byte) : State := s.setV flagReg f

end Sys2Proof.Machine
end

