-- ==== Sys2Proof/Machine/Operands.lean ====
section
/-! DEFINITION. The operand forms of the machine: widened immediates (`30_encoding.md` R93), effective addresses
(`43_index_memory.md` R190), decimal digits, the block of registers, the sprite, the key index and the pressed key. -/

namespace Sys2Proof.Machine

/-- `zext_16` of an 8-bit value (R9, R93). -/
def zextByte (b : Byte) : Word := b.setWidth 16

/-- `zext_16(nnn)` (R93). -/
def zextAddr (nnn : Addr12) : Word := nnn.setWidth 16

/-- The effective address `I + k`: an unbounded sum, never wrapped (R190, `20_memory.md` R69). -/
def State.effAddr (s : State) (k : Nat) : Nat := s.index.toNat + k

/-- The address of the glyph of a value: `0x50 + 5*v`, with no mask on `v` (R193). -/
def glyphAddress (b : Byte) : Word := 0x0050 + 5 * zextByte b

/-- The hundreds, tens and ones digits of a byte, in the order they are stored (R194). -/
def bcdDigits (b : Byte) : List Byte :=
  [BitVec.ofNat 8 (b.toNat / 100), BitVec.ofNat 8 (b.toNat / 10 % 10), BitVec.ofNat 8 (b.toNat % 10)]

/-- Store the first `k` registers at `I`, `V[0]` lowest, in ascending order (R195, `20_memory.md` R67). -/
def State.storeBlock (s : State) : Nat → State
  | 0 => s
  | k + 1 =>
    let t := s.storeBlock k
    if h : k < 16 then t.writeByte (s.effAddr k) (s.getV ⟨k, h⟩) else t

/-- Load the first `k` registers from `I`, `V[0]` from the lowest address, in ascending order (R196, `20_memory.md` R67). -/
def State.loadBlock (s : State) : Nat → State
  | 0 => s
  | k + 1 =>
    let t := s.loadBlock k
    if h : k < 16 then t.setV ⟨k, h⟩ (s.readByte (s.effAddr k)) else t

/-- The screen row of a sprite row: `(cy + row) mod 32` (`44_display.md` R212). -/
def wrapRow (cy row : Nat) : Fin 32 := ⟨(cy + row) % 32, Nat.mod_lt _ (by decide)⟩

/-- The screen column of a sprite column: `(cx + col) mod 64` (R212). -/
def wrapCol (cx col : Nat) : Fin 64 := ⟨(cx + col) % 64, Nat.mod_lt _ (by decide)⟩

/-- The frame buffer and the collision flag while a sprite is drawn (R212). -/
structure DrawAcc where
  fb : FrameBuffer
  hit : Bool
deriving DecidableEq, Repr

/-- One set bit of a sprite: an on pixel is a collision, and the pixel is XORed (R212). -/
def DrawAcc.plot (d : DrawAcc) (r : Fin 32) (c : Fin 64) : DrawAcc := ⟨d.fb.flip r c, d.hit || d.fb.pixel r c⟩

/-- The first `k` bits of one sprite byte, most significant leftmost, at row `r` (R212). -/
def drawBits (b : Byte) (r : Fin 32) (cx : Nat) (d : DrawAcc) : Nat → DrawAcc
  | 0 => d
  | k + 1 =>
    let e := drawBits b r cx d k
    if b.getLsbD (7 - k) then e.plot r (wrapCol cx k) else e

/-- The first `k` rows of the sprite at `I` (R212). -/
def State.drawRows (s : State) (cx cy : Nat) (d : DrawAcc) : Nat → DrawAcc
  | 0 => d
  | k + 1 => drawBits (s.readByte (s.effAddr k)) (wrapRow cy k) cx (s.drawRows cx cy d k) 8

/-- The lowest pressed key from key `k` on, among the next `fuel` keys (`45_keypad_timer_random.md` R235, D14). -/
def State.lowestKeyFrom (s : State) (k : Nat) : Nat → Option Nat
  | 0 => none
  | fuel + 1 => if s.keyDown k then some k else s.lowestKeyFrom (k + 1) fuel

/-- The pressed key `wait-key` reports: the lowest index (`KEY_SELECT`, D14, log 8), or none when no key is pressed (R235). -/
def State.pressedKey (s : State) : Option Nat := s.lowestKeyFrom 0 Config.numKeys

/-- A key skip's operand (R232): the flag of the key whose index is a register's content. An index above 15 has no flag and
raises `OutOfBoundsAccess(k)` (`KEY_INDEX_MODE = fault`, D15, log 9). -/
def State.withKey (s : State) (x : Reg) (k : Bool → State) : State :=
  if (s.getV x).toNat < Config.numKeys then k (s.keyDown (s.getV x).toNat) else s.raise .outOfBounds (s.getV x).toNat

end Sys2Proof.Machine
end

