-- ==== Sys2Proof/Machine/Alu.lean ====
section
/-! DEFINITION. Register and ALU instructions (`42_register_alu.md` R160 to R172). The statements of an Effect run in the order
written, each on the registers as the one before left them (`00_scope.md` R10, R172), which decides the result when `VF` is an
operand. -/

namespace Sys2Proof.Machine

/-- `6xkk` load-imm (R160). -/
def execLoadImm (x : Reg) (kk : Byte) (s : State) : Result := .next (s.setV x kk).advance

/-- `7xkk` add-imm (R161): wraps, writes no flag. -/
def execAddImm (x : Reg) (kk : Byte) (s : State) : Result := .next (s.setV x (s.getV x + kk)).advance

/-- `8xy0` copy (R162). -/
def execCopy (x y : Reg) (s : State) : Result := .next (s.setV x (s.getV y)).advance

/-- `8xy1` or (R163): the result, then `VF` cleared. -/
def execOr (x y : Reg) (s : State) : Result := .next ((s.setV x (s.getV x ||| s.getV y)).setFlag 0).advance

/-- `8xy2` and (R164): the result, then `VF` cleared. -/
def execAnd (x y : Reg) (s : State) : Result := .next ((s.setV x (s.getV x &&& s.getV y)).setFlag 0).advance

/-- `8xy3` xor (R165): the result, then `VF` cleared. -/
def execXor (x y : Reg) (s : State) : Result := .next ((s.setV x (s.getV x ^^^ s.getV y)).setFlag 0).advance

/-- `8xy4` add-reg (R166): the sum is captured before any write, then the carry, then the result. -/
def execAddReg (x y : Reg) (s : State) : Result :=
  .next ((s.setFlag (carryFlag (s.getV x) (s.getV y))).setV x (s.getV x + s.getV y)).advance

/-- `8xy5` sub (R167): the flag first; the subtraction reads the registers again. -/
def execSub (x y : Reg) (s : State) : Result :=
  let t := s.setFlag (noBorrowFlag (s.getV x) (s.getV y))
  .next (t.setV x (t.getV x - t.getV y)).advance

/-- `8xy6` shr (R168): the flag first, then `V[x]` is read again and shifted; `y` is ignored (R99). -/
def execShr (x _y : Reg) (s : State) : Result :=
  let t := s.setFlag (shiftRightFlag (s.getV x))
  .next (t.setV x (t.getV x >>> 1)).advance

/-- `8xy7` subn (R169): the flag first; the subtraction reads the registers again. -/
def execSubn (x y : Reg) (s : State) : Result :=
  let t := s.setFlag (noBorrowFlag (s.getV y) (s.getV x))
  .next (t.setV x (t.getV y - t.getV x)).advance

/-- `8xyE` shl (R170): the flag first, then `V[x]` is read again and doubled; `y` is ignored (R99). -/
def execShl (x _y : Reg) (s : State) : Result :=
  let t := s.setFlag (shiftLeftFlag (s.getV x))
  .next (t.setV x (t.getV x <<< 1)).advance

end Sys2Proof.Machine
end

