-- ==== Sys2Proof/Machine/ControlFlow.lean ====
section
/-! DEFINITION. Control transfer (`41_control_flow.md` R139 to R147): return, jump, call, jump-offset and the four register
skips. `p` is `s.pc`, the address of the instruction. -/

namespace Sys2Proof.Machine

/-- `00EE` return (R140): pops the address of the call and adds 2; `StackFault` with no call outstanding. -/
def execRet (s : State) : Result := .next (s.pop fun a t => t.setPc (a + 2))

/-- `1nnn` jump (R141). -/
def execJump (nnn : Addr12) (s : State) : Result := .next (s.setPc (zextAddr nnn))

/-- `2nnn` call (R142): pushes its own address; `StackFault` with 16 calls outstanding. -/
def execCall (nnn : Addr12) (s : State) : Result := .next (s.push s.pc fun t => t.setPc (zextAddr nnn))

/-- `3xkk` skip-eq-imm (R144). -/
def execSkipEqImm (x : Reg) (kk : Byte) (s : State) : Result := .next (s.skipIf (s.getV x == kk))

/-- `4xkk` skip-ne-imm (R145). -/
def execSkipNeImm (x : Reg) (kk : Byte) (s : State) : Result := .next (s.skipIf (s.getV x != kk))

/-- `5xy0` skip-eq-reg (R146). -/
def execSkipEqReg (x y : Reg) (s : State) : Result := .next (s.skipIf (s.getV x == s.getV y))

/-- `9xy0` skip-ne-reg (R147). -/
def execSkipNeReg (x y : Reg) (s : State) : Result := .next (s.skipIf (s.getV x != s.getV y))

/-- `Bnnn` jump-offset (R143): always `V[0]`, no reduction of the sum. -/
def execJumpOffset (nnn : Addr12) (s : State) : Result := .next (s.setPc (zextByte (s.getV 0) + zextAddr nnn))

end Sys2Proof.Machine
end

