-- ==== Sys2Proof/Machine/Display.lean ====
section
/-! DEFINITION. Frame-buffer instructions (`44_display.md` R210 to R214). -/

namespace Sys2Proof.Machine

/-- `00E0` clear (R211). -/
def execClear (s : State) : Result := .next { s with fb := FrameBuffer.blank }.advance

/-- The effect of `draw` once its sprite is in bounds (R212): the coordinates are captured before `VF` is written, every set
bit is XORed at coordinates wrapped per pixel, and `VF` is 1 iff an on pixel went off. -/
def State.drawSprite (s : State) (x y : Reg) (n : Nat) : State :=
  let d := s.drawRows (s.getV x).toNat (s.getV y).toNat ⟨s.fb, false⟩ n
  ({ s with fb := d.fb }.setFlag (flagByte d.hit)).advance

/-- `Dxyn` draw (R212): with `n = 0` nothing is read and nothing can fault, whatever `I` holds; otherwise the last sprite
byte must exist. -/
def execDraw (x y : Reg) (n : BitVec 4) (s : State) : Result :=
  .next (if n = 0 then s.drawSprite x y 0
    else s.inBounds (s.effAddr (n.toNat - 1)) fun s => s.drawSprite x y n.toNat)

end Sys2Proof.Machine
end

