-- ==== Sys2Proof/Machine/IndexMemory.lean ====
section
/-! DEFINITION. Index register and memory instructions (`43_index_memory.md` R190 to R196). The bounds of the whole access are
checked before any effect (`20_memory.md` R68); `I` is never changed by an access (R190). -/

namespace Sys2Proof.Machine

/-- `Annn` load-index (R191). -/
def execLoadIndex (nnn : Addr12) (s : State) : Result := .next (s.setIndex (zextAddr nnn)).advance

/-- `Fx1E` add-index (R192): wraps at 16 bits, no flag, no fault. -/
def execAddIndex (x : Reg) (s : State) : Result := .next (s.setIndex (s.index + zextByte (s.getV x))).advance

/-- `Fx29` glyph-addr (R193). -/
def execGlyphAddr (x : Reg) (s : State) : Result := .next (s.setIndex (glyphAddress (s.getV x))).advance

/-- `Fx33` to-bcd (R194): hundreds, tens and ones at `I`, `I + 1`, `I + 2`. -/
def execToBcd (x : Reg) (s : State) : Result :=
  .next (s.inBounds (s.effAddr 2) fun s =>
    { s with mem := s.mem.load (s.effAddr 0) (bcdDigits (s.getV x)) }.advance)

/-- `Fx55` store-regs (R195): `V[0]` to `V[x]` at `I` to `I + x`. -/
def execStoreRegs (x : Reg) (s : State) : Result :=
  .next (s.inBounds (s.effAddr x.val) fun s => (s.storeBlock (x.val + 1)).advance)

/-- `Fx65` load-regs (R196): `V[0]` to `V[x]` from `I` to `I + x`. -/
def execLoadRegs (x : Reg) (s : State) : Result :=
  .next (s.inBounds (s.effAddr x.val) fun s => (s.loadBlock (x.val + 1)).advance)

end Sys2Proof.Machine
end

