-- ==== Sys2Proof/Machine/Input.lean ====
section
/-! DEFINITION. Keypad, timer and random instructions (`45_keypad_timer_random.md` R230 to R237). -/

namespace Sys2Proof.Machine

/-- `Cxkk` rand-and (R231): the step's random byte under a mask. -/
def execRandAnd (x : Reg) (kk : Byte) (s : State) : Result := .next (s.setV x (s.rnd &&& kk)).advance

/-- `Ex9E` skip-if-pressed (R232). -/
def execSkipIfPressed (x : Reg) (s : State) : Result := .next (s.withKey x fun down => s.skipIf down)

/-- `ExA1` skip-if-not-pressed (R233). -/
def execSkipIfNotPressed (x : Reg) (s : State) : Result := .next (s.withKey x fun down => s.skipIf !down)

/-- `Fx07` read-delay (R234): the value before this step's tick. -/
def execReadDelay (x : Reg) (s : State) : Result := .next (s.setV x s.dt).advance

/-- `Fx0A` wait-key (R235): a poll; with no key pressed `pc` stays and nothing changes (the tick still happens). -/
def execWaitKey (x : Reg) (s : State) : Result :=
  .next (match s.pressedKey with
    | none => s
    | some k => (s.setV x (BitVec.ofNat 8 k)).advance)

/-- `Fx15` set-delay (R236); the tick of the same step follows. -/
def execSetDelay (x : Reg) (s : State) : Result := .next (s.setDt (s.getV x)).advance

/-- `Fx18` set-sound (R237); the tick of the same step follows. -/
def execSetSound (x : Reg) (s : State) : Result := .next (s.setSt (s.getV x)).advance

end Sys2Proof.Machine
end

