-- ==== Sys2Proof/Machine/Step.lean ====
section
/-! DEFINITION. One step (`40_cycle.md` R127), and placing the one instruction the next step fetches. -/

namespace Sys2Proof.Machine

/-- One `step` request (R120, R127): ignored while `FAULT` is set (`60_exceptions.md` R257); otherwise fetch, decode, execute
and the tick, or, where one of them raises, the fault alone (R128). -/
def step (s : State) : Host.Outcome State Fault Refusal :=
  match s.fault with
  | some _ => .next s
  | none =>
    match s.nextInstr with
    | .error f => .next (s.raise f.kind f.info.toNat)
    | .ok i => endStepOf (exec i s)

/-- `s` with the instruction of a table word stored where `step` fetches its next instruction (log 6). -/
def State.withFetchWord (s : State) (nbits w : Nat) : State := s.placeWord (tableWord nbits w)

end Sys2Proof.Machine
end

