-- ==== Sys2Proof/Safety.lean ====
section
/-! DEFINITION. The terms claims are stated in: which pieces of state two states share, the tables of the spec about the whole
machine (who may change what, where `pc` goes, when a step faults), the invariant, and the end of a run. None of these is used
by the machine itself. -/

namespace Sys2Proof.Machine

/-! ### What two states share -/

/-- The pieces of state a frame speaks of, `pc` apart (`10_state.md`); `inputs` are the four input fields (log 2). -/
inductive Piece where
  | regs | index | stack | dt | st | screen | memory | fault | inputs
deriving DecidableEq, Repr

/-- The slot `STACK[k]`. -/
def State.slot (s : State) (k : Fin 16) : Word := s.stack[k.val]

/-- A piece reads the same in both states: every register, every byte of memory at every address, every pixel. -/
def Piece.Same : Piece → State → State → Prop
  | .regs, s, t => ∀ r, t.getV r = s.getV r
  | .index, s, t => t.index = s.index
  | .stack, s, t => t.sp = s.sp ∧ ∀ k, t.slot k = s.slot k
  | .dt, s, t => t.dt = s.dt
  | .st, s, t => t.st = s.st
  | .screen, s, t => ∀ r c, t.pixel r c = s.pixel r c
  | .memory, s, t => ∀ a, t.readByte a = s.readByte a
  | .fault, s, t => t.fault = s.fault
  | .inputs, s, t => t.keys = s.keys ∧ t.rnd = s.rnd ∧ t.pending = s.pending ∧ t.inputNo = s.inputNo

/-- Every piece but the listed ones is the same; `pc` is left open. -/
def SameBut (changed : List Piece) (s t : State) : Prop := ∀ p, p ∉ changed → p.Same s t

/-- Every register but those picked out by `p` is the same. -/
def SameRegsBut (p : Reg → Prop) (s t : State) : Prop := ∀ r, ¬ p r → t.getV r = s.getV r

/-- Every byte of memory but the `n` bytes from `lo` is the same. -/
def SameMemoryBut (lo n : Nat) (s t : State) : Prop := ∀ a, ¬ (lo ≤ a ∧ a < lo + n) → t.readByte a = s.readByte a

/-- The state after `raise K(info)`: `s` with `FAULT` written, and nothing else (`60_exceptions.md` R256). -/
def State.faultedWith (s : State) (k : FaultKind) (info : Word) : State := { s with fault := some ⟨k, info⟩ }

/-! ### The tables of the spec -/

/-- The words of a row are exactly those that decode to the row's instruction with the fields of the word (`30_encoding.md`
R95, R96). -/
def SelectedBy (pattern mask : Word) (build : Word → Instr) : Prop :=
  ∀ w : Word, w &&& mask = pattern ↔ decodeWord w = .ok (build w)

/-- The pieces an instruction may change besides `pc`: the "written by" columns of `10_state.md` R33 and the statements of R24,
R28 and `20_memory.md` R60. `fault` stands with those that have a fault of their own (`60_exceptions.md` R254, R255). -/
def mayChange : Instr → List Piece
  | .clear => [.screen]
  | .ret | .call _ => [.stack, .fault]
  | .jump _ | .jumpOffset _ | .skipEqImm _ _ | .skipNeImm _ _ | .skipEqReg _ _ | .skipNeReg _ _ => []
  | .loadImm _ _ | .addImm _ _ | .copy _ _ | .or _ _ | .and _ _ | .xor _ _ => [.regs]
  | .addReg _ _ | .sub _ _ | .shr _ _ | .subn _ _ | .shl _ _ => [.regs]
  | .randAnd _ _ | .readDelay _ | .waitKey _ => [.regs]
  | .loadIndex _ | .addIndex _ | .glyphAddr _ => [.index]
  | .draw _ _ _ => [.regs, .screen, .fault]
  | .skipIfPressed _ | .skipIfNotPressed _ => [.fault]
  | .setDelay _ => [.dt]
  | .setSound _ => [.st]
  | .toBcd _ | .storeRegs _ => [.memory, .fault]
  | .loadRegs _ => [.regs, .fault]

/-- The registers an instruction may write: its destination, and `VF` for the rows of the flag table (R20, R21). -/
def mayWrite : Instr → Reg → Prop
  | .loadImm x _ | .addImm x _ | .copy x _ | .randAnd x _ | .readDelay x | .waitKey x => fun r => r = x
  | .or x _ | .and x _ | .xor x _ | .addReg x _ | .sub x _ | .shr x _ | .subn x _ | .shl x _ => fun r => r = x ∨ r = flagReg
  | .draw _ _ _ => fun r => r = flagReg
  | .loadRegs x => fun r => r ≤ x
  | .clear | .ret | .jump _ | .call _ | .skipEqImm _ _ | .skipNeImm _ _ | .skipEqReg _ _ | .skipNeReg _ _ => fun _ => False
  | .loadIndex _ | .jumpOffset _ | .skipIfPressed _ | .skipIfNotPressed _ | .setDelay _ | .setSound _ => fun _ => False
  | .addIndex _ | .glyphAddr _ | .toBcd _ | .storeRegs _ => fun _ => False

/-- The value of `pc` after a non-faulting instruction at `s.pc` (`40_cycle.md` R125, the complete list). -/
def pcAfter (i : Instr) (s : State) : Word :=
  match i with
  | .skipEqImm x kk => if s.getV x = kk then s.pc + 4 else s.pc + 2
  | .skipNeImm x kk => if s.getV x ≠ kk then s.pc + 4 else s.pc + 2
  | .skipEqReg x y => if s.getV x = s.getV y then s.pc + 4 else s.pc + 2
  | .skipNeReg x y => if s.getV x ≠ s.getV y then s.pc + 4 else s.pc + 2
  | .skipIfPressed x => if s.keyDown (s.getV x).toNat then s.pc + 4 else s.pc + 2
  | .skipIfNotPressed x => if s.keyDown (s.getV x).toNat then s.pc + 2 else s.pc + 4
  | .waitKey _ => if s.keys = 0 then s.pc else s.pc + 2
  | .jump nnn | .call nnn => nnn.setWidth 16
  | .jumpOffset nnn => BitVec.ofNat 16 ((s.getV 0).toNat + nnn.toNat)
  | .ret => s.slot ⟨(s.sp.val - 1) % 16, Nat.mod_lt _ (by decide)⟩ + 2
  | .clear | .loadImm _ _ | .addImm _ _ | .copy _ _ | .or _ _ | .and _ _ | .xor _ _ => s.pc + 2
  | .addReg _ _ | .sub _ _ | .shr _ _ | .subn _ _ | .shl _ _ => s.pc + 2
  | .loadIndex _ | .addIndex _ | .glyphAddr _ | .toBcd _ | .storeRegs _ | .loadRegs _ => s.pc + 2
  | .randAnd _ _ | .draw _ _ _ | .readDelay _ | .setDelay _ | .setSound _ => s.pc + 2

/-- The fault of an instruction's own, as the causes of `60_exceptions.md` R254 and R255 (b) to (e) list them, with the
information word of R251. -/
def ownFault (i : Instr) (s : State) : Option FaultRecord :=
  match i with
  | .call _ => if s.sp.val = 16 then some ⟨.stackFault, 16⟩ else none
  | .ret => if s.sp.val = 0 then some ⟨.stackFault, 0⟩ else none
  | .draw _ _ n =>
    if 1 ≤ n.toNat ∧ 4096 ≤ s.index.toNat + n.toNat - 1 then some ⟨.outOfBounds, saturate16 (s.index.toNat + n.toNat - 1)⟩
    else none
  | .toBcd _ => if 4096 ≤ s.index.toNat + 2 then some ⟨.outOfBounds, saturate16 (s.index.toNat + 2)⟩ else none
  | .storeRegs x | .loadRegs x =>
    if 4096 ≤ s.index.toNat + x.val then some ⟨.outOfBounds, saturate16 (s.index.toNat + x.val)⟩ else none
  | .skipIfPressed x | .skipIfNotPressed x =>
    if 15 < (s.getV x).toNat then some ⟨.outOfBounds, (s.getV x).setWidth 16⟩ else none
  | .clear | .jump _ | .skipEqImm _ _ | .skipNeImm _ _ | .skipEqReg _ _ | .loadImm _ _ | .addImm _ _ | .copy _ _ => none
  | .or _ _ | .and _ _ | .xor _ _ | .addReg _ _ | .sub _ _ | .shr _ _ | .subn _ _ | .shl _ _ | .skipNeReg _ _ => none
  | .loadIndex _ | .jumpOffset _ | .randAnd _ _ | .readDelay _ | .waitKey _ | .setDelay _ | .setSound _ => none
  | .addIndex _ | .glyphAddr _ => none

/-- The word at `pc`: `MEM[pc]*256 + MEM[pc+1]` (`20_memory.md` R62). -/
def State.wordAtPc (s : State) : Word :=
  BitVec.ofNat 16 ((s.readByte s.pc.toNat).toNat * 256 + (s.readByte (s.pc.toNat + 1)).toNat)

/-- The fault a step of a running core meets, if any: fetch, then decode, then the instruction's own check (R259, R251). -/
def State.stepFault (s : State) : Option FaultRecord :=
  if 4095 ≤ s.pc.toNat then some ⟨.outOfBounds, s.pc⟩
  else
    match decodeWord s.wordAtPc with
    | .error _ => some ⟨.unknownOpcode, s.wordAtPc⟩
    | .ok i => ownFault i s

/-! ### The sprite (`44_display.md` R212) -/

/-- The sprite of `n` rows at `I`, drawn at (`V[x]`, `V[y]`), has a set bit at `FB[r][c]`: some row and column of it lands there
after wrapping modulo 32 and 64, and bit `7 - col` of the row's byte is 1. -/
def State.SpriteOn (s : State) (x y : Reg) (n : Nat) (r : Fin 32) (c : Fin 64) : Prop :=
  ∃ row col : Nat, row < n ∧ col < 8 ∧ ((s.getV y).toNat + row) % 32 = r.val ∧ ((s.getV x).toNat + col) % 64 = c.val ∧
    (s.readByte (s.index.toNat + row)).getLsbD (7 - col) = true

/-! ### The invariant -/

/-- What every step keeps: memory is in canonical form; `pc` is at most 0x10FE, the largest value any rule can produce
(`10_state.md` R23); every stack slot holds 0 or the address of a call, at most 4094 (R33, R140). -/
abbrev State.Inv (s : State) : Prop :=
  s.mem.wf = true ∧ s.pc.toNat ≤ 0x10FE ∧ ∀ k : Fin 16, (s.slot k).toNat ≤ 4094

/-! ### Runs -/

/-- The successful end of a run (`70_reset_and_hazards.md` R307, D19): no fault, and the instruction at `pc` is a jump to
itself. -/
abbrev State.Ended (s : State) : Prop :=
  s.fault = none ∧ s.pc.toNat ≤ 0x0FFE ∧
    (s.readByte s.pc.toNat).toNat * 256 + (s.readByte (s.pc.toNat + 1)).toNat = 0x1000 + s.pc.toNat

/-- `n` step requests one after the other (`40_cycle.md` R129), as the host's own run of the machine makes them. -/
def runSteps : Nat → State → Result
  | 0, s => .next s
  | n + 1, s =>
    match step s with
    | .next t => runSteps n t
    | .fault r => .fault r
    | .refused r => .refused r

/-- Execute a list of instructions one after the other, the fetch, decode and tick left out. -/
def execAll : List Instr → State → Result
  | [], s => .next s
  | i :: rest, s =>
    match exec i s with
    | .next t => execAll rest t
    | .fault r => .fault r
    | .refused r => .refused r

end Sys2Proof.Machine
end

