-- ==== Sys2Proof/Certificates/Slice0/Obligations.lean ====
section
/-! DEFINITION. The statements for the provers, each with the rule of `spec/` it comes from. `SelectedBy`, `SameBut` and the
tables named here are defined in `Sys2Proof/Safety.lean`. -/

open Sys2Proof Sys2Proof.Machine

/-! ### Encoding -/

/-- A few words written out from the patterns of `30_encoding.md` R96 decode to the instruction they stand for, one at least for
each family of the table; near misses of R98 decode to nothing. -/
def Obligations.SampleWordsDecode : Prop :=
  decodeWord 0x00E0 = .ok .clear ∧ decodeWord 0x00EE = .ok .ret ∧ decodeWord 0x1204 = .ok (.jump 0x204) ∧
  decodeWord 0x3A12 = .ok (.skipEqImm 0xA 0x12) ∧ decodeWord 0x8AB6 = .ok (.shr 0xA 0xB) ∧
  decodeWord 0x8125 = .ok (.sub 1 2) ∧ decodeWord 0xC30F = .ok (.randAnd 3 0x0F) ∧ decodeWord 0xD012 = .ok (.draw 0 1 2) ∧
  decodeWord 0xE4A1 = .ok (.skipIfNotPressed 4) ∧ decodeWord 0xF265 = .ok (.loadRegs 2) ∧
  decodeWord 0x01E0 = .error (.unknownOpcode 0x01E0) ∧ decodeWord 0x5121 = .error (.unknownOpcode 0x5121)

/-- R90 to R93: the word of every instruction, with every operand at every value, decodes to that instruction, and its two bytes
in memory order do so at the head of any byte sequence. -/
def Obligations.EncodeThenDecode : Prop :=
  ∀ (i : Instr) (rest : List Byte), i.wellFormed = true →
    decodeWord (encode i) = .ok i ∧ decodeBytes (encodeBytes i ++ rest) = .ok (i, rest)

/-- R91 to R93, R99: a word that decodes is the word of the instruction it decodes to, so no bit of it is dropped. -/
def Obligations.DecodeThenEncode : Prop :=
  ∀ (w : Word) (i : Instr), decodeWord w = .ok i → encode i = w

/-- R95, R96 (the strict match is the spec's decision D3): a word decodes to an instruction of a row's name exactly when the row's mask and pattern select it. -/
def Obligations.DecodeFollowsOpcodeTable : Prop :=
  ∀ (w : Word), ∀ row ∈ opcodeTable,
    (row.selects w = true ↔ ∃ i, decodeWord w = .ok i ∧ i.mnemonic = row.mnemonic)

/-- R97, R253 (the strict match is the spec's decision D3, the information word D12): a word that no row selects, and no other, is unknown; fetching it raises `UnknownOpcodeError` with the word and
changes nothing else. -/
def Obligations.UnmatchedWordIsUnknownOpcode : Prop :=
  ∀ w : Word,
    ((∀ row ∈ opcodeTable, row.selects w = false) ↔ decodeWord w = .error (.unknownOpcode w)) ∧
    (∀ s : State, (∀ row ∈ opcodeTable, row.selects w = false) → s.fault = none → s.pc.toNat ≤ 4094 → s.wordAtPc = w →
      step s = .next (s.faultedWith .unknownOpcode w))

/-! ### The step -/

/-- R127: where the bytes at `pc` decode to an instruction, the step is Execute, then, unless it raised a fault, the tick and
the sampling of the next step's inputs (log 2). -/
def Obligations.StepRunsDecodedInstruction : Prop :=
  ∀ (s : State) (i : Instr), s.fault = none → s.pc.toNat ≤ 4094 →
    decodeBytes [s.readByte s.pc.toNat, s.readByte (s.pc.toNat + 1)] = .ok (i, []) →
    step s =
      match exec i s with
      | .next t => .next (if t.fault = none then t.tick.nextInput else t)
      | .fault r => .fault r
      | .refused r => .refused r

/-- R121 (the fault is the spec's decision D9): fetch reads `MEM[pc]*256 + MEM[pc+1]` at any `pc` up to 4094, odd ones too; from
4095 on the step raises `OutOfBoundsAccess(pc)` and changes nothing else. -/
def Obligations.FetchReadsTwoBytesOrFaults : Prop :=
  ∀ s : State,
    (s.pc.toNat ≤ 4094 → ∃ op, s.fetch = .ok op ∧
      op.toNat = (s.readByte s.pc.toNat).toNat * 256 + (s.readByte (s.pc.toNat + 1)).toNat) ∧
    (4095 ≤ s.pc.toNat → s.fault = none → step s = .next (s.faultedWith .outOfBounds s.pc))

/-- R257 (D11): a faulted core ignores a step request. -/
def Obligations.FaultedCoreIgnoresSteps : Prop :=
  ∀ (s : State) (f : FaultRecord) (n : Nat), s.fault = some f → runSteps n s = .next s

/-- R128, R256 (D10): a step that faults changes `FAULT` and nothing else; `pc` is left at the faulting instruction. -/
def Obligations.FaultingStepChangesOnlyFault : Prop :=
  ∀ s t : State, s.fault = none → step s = .next t → t.fault ≠ none → ∃ k info, t = s.faultedWith k info

/-- R251, R255, R259 (with the spec's decisions D9, D12, D13, D15): a step of a running core faults exactly when the list of causes says so, with the kind and the information
word it gives, fetch before decode before the instruction's own check. -/
def Obligations.StepFaultsExactlyAsListed : Prop :=
  ∀ s t : State, s.fault = none → step s = .next t → t.fault = s.stepFault

/-- R120, R123: no instruction and no step ever stops the model: every one answers a next state. -/
def Obligations.EveryStepAnswersNext : Prop :=
  (∀ (i : Instr) (s : State), ∃ t, exec i s = .next t) ∧ ∀ s : State, ∃ t, step s = .next t

/-- R124: both timers count down by one at the end of every step that does not fault, after the instruction's own effect, and
stop at 0; the tick changes nothing else (the step's inputs apart, log 2); a step that faults leaves them. -/
def Obligations.TimersTickOncePerUnfaultedStep : Prop :=
  ∀ (s : State) (i : Instr), s.fault = none → s.pc.toNat ≤ 4094 →
    decodeBytes [s.readByte s.pc.toNat, s.readByte (s.pc.toNat + 1)] = .ok (i, []) →
    ∃ t u, step s = .next t ∧ exec i s = .next u ∧ SameBut [.dt, .st, .inputs] u t ∧ t.pc = u.pc ∧
      (t.fault = none →
        t.dt.toNat = (match i with | .setDelay x => (s.getV x).toNat | _ => s.dt.toNat) - 1 ∧
        t.st.toNat = (match i with | .setSound x => (s.getV x).toNat | _ => s.st.toNat) - 1 ∧
        ∀ x, i = .readDelay x → t.getV x = s.dt) ∧
      (t.fault ≠ none → t.dt = s.dt ∧ t.st = s.st)

/-- R125: the complete list of what a non-faulting step leaves in `pc`. -/
def Obligations.UnfaultedStepLeavesListedPc : Prop :=
  ∀ (s t : State) (i : Instr), s.fault = none → s.pc.toNat ≤ 4094 →
    decodeBytes [s.readByte s.pc.toNat, s.readByte (s.pc.toNat + 1)] = .ok (i, []) →
    step s = .next t → t.fault = none → t.pc = pcAfter i s

/-! ### The invariant and reset -/

/-- R23, R33, R140: from every state with memory in canonical form, `pc` at most 0x10FE and every stack slot at most 4094, a
step leads to such a state. -/
def Obligations.StepKeepsInvariant : Prop :=
  ∀ s t : State, s.Inv → step s = .next t → t.Inv

/-- R34: the state after reset meets the invariant. -/
def Obligations.ResetStateMeetsInvariant : Prop :=
  State.reset.Inv

/-- R34, R292: a reset with any glyph table and any ROM, good or bad, leaves a state that meets the invariant. -/
def Obligations.ResetWithRomMeetsInvariant : Prop :=
  ∀ glyphs rom : List Byte, (State.resetRom glyphs rom).Inv

/-- R34, R292 (with the spec's decisions D4, D5): what a reset with a valid ROM leaves, for every glyph table (D6). -/
def Obligations.ResetBuildsInitialState : Prop :=
  ∀ glyphs rom : List Byte, glyphs.length = 80 → 1 ≤ rom.length → rom.length ≤ 3584 →
    let s := State.resetRom glyphs rom
    (∀ r, s.getV r = 0) ∧ s.index = 0 ∧ s.pc = 0x0200 ∧ s.sp.val = 0 ∧ (∀ k, s.slot k = 0) ∧ s.dt = 0 ∧ s.st = 0 ∧
    (∀ r c, s.pixel r c = false) ∧ s.fault = none ∧
    (∀ (j : Nat) (h : j < glyphs.length), s.readByte (0x050 + j) = glyphs[j]) ∧
    (∀ (j : Nat) (h : j < rom.length), s.readByte (0x200 + j) = rom[j]) ∧
    (∀ a, a < 4096 → ¬(0x050 ≤ a ∧ a < 0x0A0) → ¬(0x200 ≤ a ∧ a < 0x200 + rom.length) → s.readByte a = 0)

/-- R252, R291 (the spec's decision D24; information word D12): a reset with an empty or oversized ROM records `LoadError` and the length, loads no ROM byte, and no step
is ever performed. -/
def Obligations.BadRomResetNeverSteps : Prop :=
  ∀ glyphs rom : List Byte, glyphs.length = 80 → (rom.length = 0 ∨ 3584 < rom.length) →
    let s := State.resetRom glyphs rom
    s.fault = some ⟨.loadError, saturate16 rom.length⟩ ∧
    (∀ (j : Nat) (h : j < glyphs.length), s.readByte (0x050 + j) = glyphs[j]) ∧
    (∀ a, a < 4096 → ¬(0x050 ≤ a ∧ a < 0x0A0) → s.readByte a = 0) ∧
    s.pc = 0x0200 ∧ ∀ n, runSteps n s = .next s

/-! ### Control transfer -/

/-- R144 to R147: the four register skips compare, add 4 or 2 to `pc`, and change nothing else. -/
def Obligations.SkipsCompareAndMovePc : Prop :=
  SelectedBy 0x3000 0xF000 (fun w => .skipEqImm (fieldX w) (fieldKk w)) ∧
  SelectedBy 0x4000 0xF000 (fun w => .skipNeImm (fieldX w) (fieldKk w)) ∧
  SelectedBy 0x5000 0xF00F (fun w => .skipEqReg (fieldX w) (fieldY w)) ∧
  SelectedBy 0x9000 0xF00F (fun w => .skipNeReg (fieldX w) (fieldY w)) ∧
  ∀ (s : State) (x y : Reg) (kk : Byte),
    (∃ t, exec (.skipEqImm x kk) s = .next t ∧ t.pc = (if (s.getV x).toNat = kk.toNat then s.pc + 4 else s.pc + 2) ∧
      SameBut [] s t) ∧
    (∃ t, exec (.skipNeImm x kk) s = .next t ∧ t.pc = (if (s.getV x).toNat = kk.toNat then s.pc + 2 else s.pc + 4) ∧
      SameBut [] s t) ∧
    (∃ t, exec (.skipEqReg x y) s = .next t ∧
      t.pc = (if (s.getV x).toNat = (s.getV y).toNat then s.pc + 4 else s.pc + 2) ∧ SameBut [] s t) ∧
    (∃ t, exec (.skipNeReg x y) s = .next t ∧
      t.pc = (if (s.getV x).toNat = (s.getV y).toNat then s.pc + 2 else s.pc + 4) ∧ SameBut [] s t)

/-- R141: `jump` sets `pc` to `nnn` and changes nothing else; no target is a fault of the jump. -/
def Obligations.JumpSetsPc : Prop :=
  SelectedBy 0x1000 0xF000 (fun w => .jump (fieldNnn w)) ∧
  ∀ (s : State) (nnn : Addr12), ∃ t, exec (.jump nnn) s = .next t ∧ t.pc.toNat = nnn.toNat ∧ SameBut [] s t

/-- R143: `jump-offset` sets `pc` to `V[0] + nnn`, not reduced, and changes nothing else. -/
def Obligations.JumpOffsetAddsRegisterZero : Prop :=
  SelectedBy 0xB000 0xF000 (fun w => .jumpOffset (fieldNnn w)) ∧
  ∀ (s : State) (nnn : Addr12), ∃ t, exec (.jumpOffset nnn) s = .next t ∧
    t.pc.toNat = (s.getV 0).toNat + nnn.toNat ∧ SameBut [] s t

/-- R142: `call` pushes its own address and jumps; with 16 calls outstanding it raises `StackFault(16)` and writes nothing. -/
def Obligations.CallPushesItsOwnAddress : Prop :=
  SelectedBy 0x2000 0xF000 (fun w => .call (fieldNnn w)) ∧
  ∀ (s : State) (nnn : Addr12),
    (s.sp.val < 16 → ∃ t, exec (.call nnn) s = .next t ∧ t.pc.toNat = nnn.toNat ∧ t.sp.val = s.sp.val + 1 ∧
      (∀ k : Fin 16, t.slot k = if k.val = s.sp.val then s.pc else s.slot k) ∧ SameBut [.stack] s t) ∧
    (s.sp.val = 16 → exec (.call nnn) s = .next (s.faultedWith .stackFault 16))

/-- R140: `return` pops the address of the call and adds 2, the slot keeping its content; with no call outstanding it raises
`StackFault(0)` and writes nothing. -/
def Obligations.ReturnPopsAndAddsTwo : Prop :=
  SelectedBy 0x00EE 0xFFFF (fun _ => .ret) ∧
  ∀ s : State,
    (0 < s.sp.val → ∃ t, exec .ret s = .next t ∧ t.sp.val + 1 = s.sp.val ∧ (∀ k, t.slot k = s.slot k) ∧
      (∀ k : Fin 16, k.val + 1 = s.sp.val → t.pc.toNat = ((s.slot k).toNat + 2) % 65536) ∧ SameBut [.stack] s t) ∧
    (s.sp.val = 0 → exec .ret s = .next (s.faultedWith .stackFault 0))

/-- R140, R142 (property S3 of `95_test_vectors.md`): a call and the return after it leave `pc` after the call and `SP` as it
was; the slot `SP` names keeps the address of the call, and every other slot and everything outside the stack is unchanged. -/
def Obligations.CallThenReturnComesBack : Prop :=
  ∀ (s : State) (nnn : Addr12), s.sp.val < 16 →
    ∃ t, execAll [.call nnn, .ret] s = .next t ∧ t.pc = s.pc + 2 ∧ t.sp = s.sp ∧
      (∀ k : Fin 16, t.slot k = if k.val = s.sp.val then s.pc else s.slot k) ∧ SameBut [.stack] s t

/-- R142, R254 (property S4): from an empty stack, up to 16 nested calls succeed whatever their targets, and a 17th raises
`StackFault`. -/
def Obligations.SixteenNestedCallsThenOverflow : Prop :=
  ∀ (s : State) (targets : List Addr12), s.sp.val = 0 →
    (targets.length ≤ 16 → ∃ t, execAll (targets.map .call) s = .next t ∧ t.sp.val = targets.length ∧ t.fault = s.fault) ∧
    (targets.length = 16 → ∀ nnn, ∃ t, execAll (targets.map .call ++ [.call nnn]) s = .next t ∧ t.sp.val = 16 ∧
      t.fault = some ⟨.stackFault, 16⟩)

/-! ### Register and ALU -/

/-- R160, R161, R162: load-imm, add-imm (mod 256) and copy write their destination, `VF` only as a destination, and move on. -/
def Obligations.LoadAddCopyWriteDestination : Prop :=
  SelectedBy 0x6000 0xF000 (fun w => .loadImm (fieldX w) (fieldKk w)) ∧
  SelectedBy 0x7000 0xF000 (fun w => .addImm (fieldX w) (fieldKk w)) ∧
  SelectedBy 0x8000 0xF00F (fun w => .copy (fieldX w) (fieldY w)) ∧
  ∀ (s : State) (x y : Reg) (kk : Byte),
    (∃ t, exec (.loadImm x kk) s = .next t ∧ t.getV x = kk ∧ t.pc = s.pc + 2 ∧ SameRegsBut (· = x) s t ∧
      SameBut [.regs] s t) ∧
    (∃ t, exec (.addImm x kk) s = .next t ∧ (t.getV x).toNat = ((s.getV x).toNat + kk.toNat) % 256 ∧ t.pc = s.pc + 2 ∧
      SameRegsBut (· = x) s t ∧ SameBut [.regs] s t) ∧
    (∃ t, exec (.copy x y) s = .next t ∧ t.getV x = s.getV y ∧ t.pc = s.pc + 2 ∧ SameRegsBut (· = x) s t ∧
      SameBut [.regs] s t)

/-- R163, R164, R165: or, and, xor write their destination bit by bit and then clear `VF`, which so ends 0 also as the
destination. -/
def Obligations.LogicWritesResultThenClearsFlag : Prop :=
  SelectedBy 0x8001 0xF00F (fun w => .or (fieldX w) (fieldY w)) ∧
  SelectedBy 0x8002 0xF00F (fun w => .and (fieldX w) (fieldY w)) ∧
  SelectedBy 0x8003 0xF00F (fun w => .xor (fieldX w) (fieldY w)) ∧
  ∀ (s : State) (x y : Reg),
    (∃ t, exec (.or x y) s = .next t ∧ t.getV flagReg = 0 ∧
      (x ≠ flagReg → ∀ b < 8, (t.getV x).getLsbD b = ((s.getV x).getLsbD b || (s.getV y).getLsbD b)) ∧
      t.pc = s.pc + 2 ∧ SameRegsBut (fun r => r = x ∨ r = flagReg) s t ∧ SameBut [.regs] s t) ∧
    (∃ t, exec (.and x y) s = .next t ∧ t.getV flagReg = 0 ∧
      (x ≠ flagReg → ∀ b < 8, (t.getV x).getLsbD b = ((s.getV x).getLsbD b && (s.getV y).getLsbD b)) ∧
      t.pc = s.pc + 2 ∧ SameRegsBut (fun r => r = x ∨ r = flagReg) s t ∧ SameBut [.regs] s t) ∧
    (∃ t, exec (.xor x y) s = .next t ∧ t.getV flagReg = 0 ∧
      (x ≠ flagReg → ∀ b < 8, (t.getV x).getLsbD b = ((s.getV x).getLsbD b ^^ (s.getV y).getLsbD b)) ∧
      t.pc = s.pc + 2 ∧ SameRegsBut (fun r => r = x ∨ r = flagReg) s t ∧ SameBut [.regs] s t)

/-- R166: add-reg leaves the sum of the old values mod 256 in its destination, `VF` included, and the carry in `VF` otherwise. -/
def Obligations.AddRegWritesSumAndCarry : Prop :=
  SelectedBy 0x8004 0xF00F (fun w => .addReg (fieldX w) (fieldY w)) ∧
  ∀ (s : State) (x y : Reg),
    ∃ t, exec (.addReg x y) s = .next t ∧ (t.getV x).toNat = ((s.getV x).toNat + (s.getV y).toNat) % 256 ∧
      (x ≠ flagReg → t.getV flagReg = if 255 < (s.getV x).toNat + (s.getV y).toNat then 1 else 0) ∧
      t.pc = s.pc + 2 ∧ SameRegsBut (fun r => r = x ∨ r = flagReg) s t ∧ SameBut [.regs] s t

/-- R167, R169: sub and subn write the no-borrow flag of the old values first; the difference mod 256 is then of the registers
as they stand, so an operand that is `VF` is the flag. -/
def Obligations.SubtractionsWriteBorrowFirst : Prop :=
  SelectedBy 0x8005 0xF00F (fun w => .sub (fieldX w) (fieldY w)) ∧
  SelectedBy 0x8007 0xF00F (fun w => .subn (fieldX w) (fieldY w)) ∧
  ∀ (s : State) (x y : Reg),
    (∃ t f, exec (.sub x y) s = .next t ∧ f = (if (s.getV y).toNat ≤ (s.getV x).toNat then 1 else 0) ∧
      (t.getV x).toNat = ((if x = flagReg then f else (s.getV x).toNat) + 256 -
        (if y = flagReg then f else (s.getV y).toNat)) % 256 ∧
      (x ≠ flagReg → (t.getV flagReg).toNat = f) ∧
      t.pc = s.pc + 2 ∧ SameRegsBut (fun r => r = x ∨ r = flagReg) s t ∧ SameBut [.regs] s t) ∧
    (∃ t f, exec (.subn x y) s = .next t ∧ f = (if (s.getV x).toNat ≤ (s.getV y).toNat then 1 else 0) ∧
      (t.getV x).toNat = ((if y = flagReg then f else (s.getV y).toNat) + 256 -
        (if x = flagReg then f else (s.getV x).toNat)) % 256 ∧
      (x ≠ flagReg → (t.getV flagReg).toNat = f) ∧
      t.pc = s.pc + 2 ∧ SameRegsBut (fun r => r = x ∨ r = flagReg) s t ∧ SameBut [.regs] s t)

/-- R168, R170: shr and shl put the bit shifted out in `VF` first and then halve or double the destination as it stands; `y` has
no part in it. -/
def Obligations.ShiftsMoveOneBitThroughFlag : Prop :=
  SelectedBy 0x8006 0xF00F (fun w => .shr (fieldX w) (fieldY w)) ∧
  SelectedBy 0x800E 0xF00F (fun w => .shl (fieldX w) (fieldY w)) ∧
  ∀ (s : State) (x y : Reg),
    (∃ t f, exec (.shr x y) s = .next t ∧ f = (s.getV x).toNat % 2 ∧
      (t.getV x).toNat = (if x = flagReg then f else (s.getV x).toNat) / 2 ∧
      (x ≠ flagReg → (t.getV flagReg).toNat = f) ∧
      t.pc = s.pc + 2 ∧ SameRegsBut (fun r => r = x ∨ r = flagReg) s t ∧ SameBut [.regs] s t) ∧
    (∃ t f, exec (.shl x y) s = .next t ∧ f = (s.getV x).toNat / 128 ∧
      (t.getV x).toNat = (if x = flagReg then f else (s.getV x).toNat) * 2 % 256 ∧
      (x ≠ flagReg → (t.getV flagReg).toNat = f) ∧
      t.pc = s.pc + 2 ∧ SameRegsBut (fun r => r = x ∨ r = flagReg) s t ∧ SameBut [.regs] s t)

/-- R172 (the spec's decision D2), its table: what `VF` holds after a flag-writing instruction whose destination is `VF` and
whose other operand is not. -/
def Obligations.FlagRegisterAsDestination : Prop :=
  ∀ (s : State) (y : Reg), y ≠ flagReg →
    (∃ t, exec (.copy flagReg y) s = .next t ∧ t.getV flagReg = s.getV y) ∧
    (∃ t, exec (.or flagReg y) s = .next t ∧ t.getV flagReg = 0) ∧
    (∃ t, exec (.and flagReg y) s = .next t ∧ t.getV flagReg = 0) ∧
    (∃ t, exec (.xor flagReg y) s = .next t ∧ t.getV flagReg = 0) ∧
    (∃ t, exec (.addReg flagReg y) s = .next t ∧
      (t.getV flagReg).toNat = ((s.getV flagReg).toNat + (s.getV y).toNat) % 256) ∧
    (∃ t, exec (.sub flagReg y) s = .next t ∧ (t.getV flagReg).toNat =
      ((if (s.getV y).toNat ≤ (s.getV flagReg).toNat then 1 else 0) + 256 - (s.getV y).toNat) % 256) ∧
    (∃ t, exec (.shr flagReg y) s = .next t ∧ t.getV flagReg = 0) ∧
    (∃ t, exec (.subn flagReg y) s = .next t ∧ (t.getV flagReg).toNat =
      ((s.getV y).toNat + 256 - (if (s.getV flagReg).toNat ≤ (s.getV y).toNat then 1 else 0)) % 256) ∧
    (∃ t, exec (.shl flagReg y) s = .next t ∧ t.getV flagReg = if (s.getV flagReg).getLsbD 7 then 2 else 0)

/-! ### Index and memory -/

/-- R191, R192, R193: the three writers of `I`; add-index wraps at 16 bits and writes no flag, glyph-addr does not mask. -/
def Obligations.IndexWritersSetIndex : Prop :=
  SelectedBy 0xA000 0xF000 (fun w => .loadIndex (fieldNnn w)) ∧
  SelectedBy 0xF01E 0xF0FF (fun w => .addIndex (fieldX w)) ∧
  SelectedBy 0xF029 0xF0FF (fun w => .glyphAddr (fieldX w)) ∧
  ∀ (s : State) (x : Reg) (nnn : Addr12),
    (∃ t, exec (.loadIndex nnn) s = .next t ∧ t.index.toNat = nnn.toNat ∧ t.pc = s.pc + 2 ∧ SameBut [.index] s t) ∧
    (∃ t, exec (.addIndex x) s = .next t ∧ t.index.toNat = (s.index.toNat + (s.getV x).toNat) % 65536 ∧
      t.pc = s.pc + 2 ∧ SameBut [.index] s t) ∧
    (∃ t, exec (.glyphAddr x) s = .next t ∧ t.index.toNat = 0x50 + 5 * (s.getV x).toNat ∧ t.pc = s.pc + 2 ∧
      SameBut [.index] s t)

/-- R194 (its information word with the spec's decision D12): to-bcd stores the hundreds, tens and ones digits at `I`, `I + 1`,
`I + 2` and nothing else; past the end of memory it raises `OutOfBoundsAccess(I + 2)`, saturated, and writes nothing. -/
def Obligations.ToBcdStoresThreeDigits : Prop :=
  SelectedBy 0xF033 0xF0FF (fun w => .toBcd (fieldX w)) ∧
  ∀ (s : State) (x : Reg),
    (s.index.toNat + 2 < 4096 → ∃ t, exec (.toBcd x) s = .next t ∧
      (t.readByte s.index.toNat).toNat = (s.getV x).toNat / 100 ∧
      (t.readByte (s.index.toNat + 1)).toNat = (s.getV x).toNat / 10 % 10 ∧
      (t.readByte (s.index.toNat + 2)).toNat = (s.getV x).toNat % 10 ∧
      SameMemoryBut s.index.toNat 3 s t ∧ t.pc = s.pc + 2 ∧ SameBut [.memory] s t) ∧
    (4096 ≤ s.index.toNat + 2 →
      exec (.toBcd x) s = .next (s.faultedWith .outOfBounds (saturate16 (s.index.toNat + 2))))

/-- R195 (its information word with the spec's decision D12): store-regs stores `V[0]` to `V[x]` at `I` to `I + x` and nothing
else; past the end of memory it raises `OutOfBoundsAccess(I + x)`, saturated, and writes nothing. -/
def Obligations.StoreRegsStoresBlock : Prop :=
  SelectedBy 0xF055 0xF0FF (fun w => .storeRegs (fieldX w)) ∧
  ∀ (s : State) (x : Reg),
    (s.index.toNat + x.val < 4096 → ∃ t, exec (.storeRegs x) s = .next t ∧
      (∀ r : Reg, r ≤ x → t.readByte (s.index.toNat + r.val) = s.getV r) ∧
      SameMemoryBut s.index.toNat (x.val + 1) s t ∧ t.pc = s.pc + 2 ∧ SameBut [.memory] s t) ∧
    (4096 ≤ s.index.toNat + x.val →
      exec (.storeRegs x) s = .next (s.faultedWith .outOfBounds (saturate16 (s.index.toNat + x.val))))

/-- R196 (its information word with the spec's decision D12): load-regs loads `V[0]` to `V[x]` from `I` to `I + x`, the registers
above `x`, `I` and memory unchanged; past the end of memory it raises `OutOfBoundsAccess(I + x)`, saturated, and loads nothing. -/
def Obligations.LoadRegsLoadsBlock : Prop :=
  SelectedBy 0xF065 0xF0FF (fun w => .loadRegs (fieldX w)) ∧
  ∀ (s : State) (x : Reg),
    (s.index.toNat + x.val < 4096 → ∃ t, exec (.loadRegs x) s = .next t ∧
      (∀ r : Reg, r ≤ x → t.getV r = s.readByte (s.index.toNat + r.val)) ∧
      SameRegsBut (· ≤ x) s t ∧ t.pc = s.pc + 2 ∧ SameBut [.regs] s t) ∧
    (4096 ≤ s.index.toNat + x.val →
      exec (.loadRegs x) s = .next (s.faultedWith .outOfBounds (saturate16 (s.index.toNat + x.val))))

/-- R73: an instruction word that store-regs puts at the address after its own is what the next fetch reads. -/
def Obligations.StoredWordIsFetchedNext : Prop :=
  ∀ (s : State) (x j k : Reg), s.index.toNat + x.val < 4096 → j ≤ x → k ≤ x →
    s.index.toNat + j.val = s.pc.toNat + 2 → s.index.toNat + k.val = s.pc.toNat + 3 →
    ∃ t, exec (.storeRegs x) s = .next t ∧ t.fetch = .ok (wordOfBytes (s.getV j) (s.getV k))

/-! ### Display -/

/-- R211: clear turns every pixel off and changes nothing else, `VF` included. -/
def Obligations.ClearTurnsEveryPixelOff : Prop :=
  SelectedBy 0x00E0 0xFFFF (fun _ => .clear) ∧
  ∀ s : State, ∃ t, exec .clear s = .next t ∧ (∀ r c, t.pixel r c = false) ∧ t.pc = s.pc + 2 ∧ SameBut [.screen] s t

/-- R212 (with the spec's decisions D7, D12): draw XORs the pixels its sprite's set bits land on, wrapped per pixel, and leaves every
other; `VF` is 1 iff one of them was on, also with `x` or `y` = `VF` and with `n = 0`; a sprite that runs past memory raises
`OutOfBoundsAccess` and changes nothing. -/
def Obligations.DrawXorsSpriteAndSetsCollision : Prop :=
  SelectedBy 0xD000 0xF000 (fun w => .draw (fieldX w) (fieldY w) (fieldN w)) ∧
  ∀ (s : State) (x y : Reg) (n : BitVec 4),
    (n.toNat = 0 ∨ s.index.toNat + n.toNat - 1 < 4096 → ∃ t, exec (.draw x y n) s = .next t ∧
      (∀ r c, s.SpriteOn x y n.toNat r c → t.pixel r c = !s.pixel r c) ∧
      (∀ r c, ¬s.SpriteOn x y n.toNat r c → t.pixel r c = s.pixel r c) ∧
      ((∃ r c, s.SpriteOn x y n.toNat r c ∧ s.pixel r c = true) → t.getV flagReg = 1) ∧
      ((¬∃ r c, s.SpriteOn x y n.toNat r c ∧ s.pixel r c = true) → t.getV flagReg = 0) ∧
      SameRegsBut (· = flagReg) s t ∧ t.pc = s.pc + 2 ∧ SameBut [.regs, .screen] s t) ∧
    (1 ≤ n.toNat → 4096 ≤ s.index.toNat + n.toNat - 1 →
      exec (.draw x y n) s = .next (s.faultedWith .outOfBounds (saturate16 (s.index.toNat + n.toNat - 1))))

/-- R212 (h) (property S5, and its caveat): the same sprite drawn twice at the same place restores the screen; if the touched
pixels were off, the second draw leaves `VF` = 1 exactly when the sprite has a set bit. -/
def Obligations.DrawTwiceRestoresScreen : Prop :=
  ∀ (s : State) (x y : Reg) (n : BitVec 4), x ≠ flagReg → y ≠ flagReg →
    (n.toNat = 0 ∨ s.index.toNat + n.toNat - 1 < 4096) →
    ∃ t, execAll [.draw x y n, .draw x y n] s = .next t ∧ (∀ r c, t.pixel r c = s.pixel r c) ∧
      ((∀ r c, s.SpriteOn x y n.toNat r c → s.pixel r c = false) →
        (t.getV flagReg = 1 ↔ ∃ r c, s.SpriteOn x y n.toNat r c))

/-! ### Keypad, timers, random -/

/-- R231 (with D16): rand-and writes the step's random byte under the mask; the byte is any the state holds. -/
def Obligations.RandAndMasksRandomByte : Prop :=
  SelectedBy 0xC000 0xF000 (fun w => .randAnd (fieldX w) (fieldKk w)) ∧
  ∀ (s : State) (x : Reg) (kk : Byte), ∃ t, exec (.randAnd x kk) s = .next t ∧
    (∀ b < 8, (t.getV x).getLsbD b = (s.rnd.getLsbD b && kk.getLsbD b)) ∧ t.pc = s.pc + 2 ∧ SameRegsBut (· = x) s t ∧
    SameBut [.regs] s t

/-- R232, R233 (with D15): the key skips test the flag of the key a register names and move `pc`; an index above 15 raises
`OutOfBoundsAccess` with the index and changes nothing. -/
def Obligations.KeySkipsTestKeyFlag : Prop :=
  SelectedBy 0xE09E 0xF0FF (fun w => .skipIfPressed (fieldX w)) ∧
  SelectedBy 0xE0A1 0xF0FF (fun w => .skipIfNotPressed (fieldX w)) ∧
  ∀ (s : State) (x : Reg),
    ((s.getV x).toNat ≤ 15 →
      (∃ t, exec (.skipIfPressed x) s = .next t ∧
        t.pc = (if s.keys.getLsbD (s.getV x).toNat then s.pc + 4 else s.pc + 2) ∧ SameBut [] s t) ∧
      (∃ t, exec (.skipIfNotPressed x) s = .next t ∧
        t.pc = (if s.keys.getLsbD (s.getV x).toNat then s.pc + 2 else s.pc + 4) ∧ SameBut [] s t)) ∧
    (15 < (s.getV x).toNat →
      exec (.skipIfPressed x) s = .next (s.faultedWith .outOfBounds ((s.getV x).setWidth 16)) ∧
      exec (.skipIfNotPressed x) s = .next (s.faultedWith .outOfBounds ((s.getV x).setWidth 16)))

/-- R235 (with D14): wait-key with no key pressed changes nothing, `pc` included; otherwise it writes the lowest pressed index
and moves on. -/
def Obligations.WaitKeyTakesLowestOrStays : Prop :=
  SelectedBy 0xF00A 0xF0FF (fun w => .waitKey (fieldX w)) ∧
  ∀ (s : State) (x : Reg),
    ((∀ k < 16, s.keys.getLsbD k = false) → exec (.waitKey x) s = .next s) ∧
    (∀ k < 16, s.keys.getLsbD k = true → (∀ j < k, s.keys.getLsbD j = false) →
      ∃ t, exec (.waitKey x) s = .next t ∧ (t.getV x).toNat = k ∧ t.pc = s.pc + 2 ∧ SameRegsBut (· = x) s t ∧
        SameBut [.regs] s t)

/-- R235 (property S7; the listed inputs are the model's own, log 2): while no step sees a key pressed, step after step of
wait-key leaves `pc` and every register, and the timers run down. -/
def Obligations.WaitKeyPollsUntilKey : Prop :=
  ∀ (s : State) (x : Reg) (n : Nat), s.fault = none → s.pc.toNat ≤ 4094 →
    decodeBytes [s.readByte s.pc.toNat, s.readByte (s.pc.toNat + 1)] = .ok (.waitKey x, []) →
    s.keys = 0 → (∀ i ∈ s.pending, i.keys = 0) → n ≤ s.pending.length + 1 →
    ∃ t, runSteps n s = .next t ∧ t.pc = s.pc ∧ t.dt.toNat = s.dt.toNat - n ∧ t.st.toNat = s.st.toNat - n ∧
      SameBut [.dt, .st, .inputs] s t

/-- R234, R236, R237: read-delay reads `DT`; set-delay and set-sound write their timer. The last clause of each applies the tick
(R124, which the step of R127 puts after Execute) to the state the instruction leaves, as the spec derives it in R234 and R236;
that a step does so is `TimersTickOncePerUnfaultedStep`. -/
def Obligations.TimerInstructionsMoveTimers : Prop :=
  SelectedBy 0xF007 0xF0FF (fun w => .readDelay (fieldX w)) ∧
  SelectedBy 0xF015 0xF0FF (fun w => .setDelay (fieldX w)) ∧
  SelectedBy 0xF018 0xF0FF (fun w => .setSound (fieldX w)) ∧
  ∀ (s : State) (x : Reg),
    (∃ t, exec (.readDelay x) s = .next t ∧ t.getV x = s.dt ∧ t.pc = s.pc + 2 ∧ SameRegsBut (· = x) s t ∧
      SameBut [.regs] s t ∧ t.tick.dt.toNat = s.dt.toNat - 1) ∧
    (∃ t, exec (.setDelay x) s = .next t ∧ t.dt = s.getV x ∧ t.pc = s.pc + 2 ∧ SameBut [.dt] s t ∧
      t.tick.dt.toNat = (s.getV x).toNat - 1) ∧
    (∃ t, exec (.setSound x) s = .next t ∧ t.st = s.getV x ∧ t.pc = s.pc + 2 ∧ SameBut [.st] s t ∧
      t.tick.st.toNat = (s.getV x).toNat - 1)

/-! ### Whole-machine rules -/

/-- R20 to R33, R60, R61: no instruction changes a piece of state outside the spec's list of its writers; in particular only draw
and clear change a pixel, only call and return the stack, only to-bcd and store-regs memory. -/
def Obligations.InstructionsChangeOnlyListedPieces : Prop :=
  ∀ (i : Instr) (s t : State), exec i s = .next t → SameBut (mayChange i) s t

/-- R20, R21: no instruction writes a register but its destination and, for the rows of the flag table, `VF`. -/
def Obligations.InstructionsWriteOnlyListedRegisters : Prop :=
  ∀ (i : Instr) (s t : State), exec i s = .next t → SameRegsBut (mayWrite i) s t

/-- R231: the random byte reaches nothing but rand-and: every other instruction does the same whatever the byte. -/
def Obligations.RandomByteReachesOnlyRandAnd : Prop :=
  ∀ (i : Instr) (s t : State) (b : Byte), (∀ x kk, i ≠ .randAnd x kk) → exec i s = .next t →
    exec i { s with rnd := b } = .next { t with rnd := b }

/-- R27: the key flags are read by the two key skips and wait-key only: every other instruction does the same whatever they
are. -/
def Obligations.KeysReachOnlyKeyInstructions : Prop :=
  ∀ (i : Instr) (s t : State) (ks : BitVec 16),
    (∀ x, i ≠ .skipIfPressed x ∧ i ≠ .skipIfNotPressed x ∧ i ≠ .waitKey x) → exec i s = .next t →
    exec i { s with keys := ks } = .next { t with keys := ks }

/-- R307 (the spec's definition D19): in the end state of a run every further step leads to an end state and changes nothing but
the timers, which count down. -/
def Obligations.EndStateOnlyCountsDown : Prop :=
  ∀ s : State, s.Ended → ∃ t, step s = .next t ∧ t.Ended ∧ t.pc = s.pc ∧ t.dt.toNat = s.dt.toNat - 1 ∧
    t.st.toNat = s.st.toNat - 1 ∧ SameBut [.dt, .st, .inputs] s t
end

