-- ==== Sys2Proof/Laws/Decode.lean ====
section
/-! SUPPORT. The fields of a word and of an encoded instruction, and what each mask of the opcode table asks of a word
(`30_encoding.md` R91, R92, R95, R96). -/

namespace Sys2Proof

/-! ### A word is its fields -/

/-- Two adjacent fields are one field. -/
theorem join_fields {w start₁ start₂ len₁ len₂ : Nat} {a : BitVec w} (h : start₂ = start₁ + len₁) :
    a.extractLsb' start₂ len₂ ++ a.extractLsb' start₁ len₁ = a.extractLsb' start₁ (len₂ + len₁) :=
  BitVec.extractLsb'_append_extractLsb'_eq_extractLsb' h

/-- A word is its top nibble and its low 12 bits. -/
theorem word_eq_nnn (w : Word) : wordNNN (fieldT w) (fieldNnn w) = w := by
  unfold wordNNN fieldT fieldNnn
  rw [join_fields (start₂ := 12) (start₁ := 0) (len₁ := 12) rfl]
  exact BitVec.extractLsb'_eq_self

/-- A word is its top nibble, its `x` and its low byte. -/
theorem word_eq_xkk (w : Word) : wordXKK (fieldT w) (fieldX w) (fieldKk w) = w := by
  unfold wordXKK fieldT fieldX fieldKk
  simp only [BitVec.ofFin_toFin]
  rw [join_fields (start₂ := 8) (start₁ := 0) (len₁ := 8) rfl, join_fields (start₂ := 12) (start₁ := 0) (len₁ := 12) rfl]
  exact BitVec.extractLsb'_eq_self

/-- A word is its four nibbles. -/
theorem word_eq_xyn (w : Word) : wordXYN (fieldT w) (fieldX w) (fieldY w) (fieldN w) = w := by
  unfold wordXYN fieldT fieldX fieldY fieldN
  simp only [BitVec.ofFin_toFin]
  rw [join_fields (start₂ := 4) (start₁ := 0) (len₁ := 4) rfl, join_fields (start₂ := 8) (start₁ := 0) (len₁ := 8) rfl,
    join_fields (start₂ := 12) (start₁ := 0) (len₁ := 12) rfl]
  exact BitVec.extractLsb'_eq_self

/-! ### The fields of each format -/

@[simp] theorem fieldT_wordNNN (t : BitVec 4) (nnn : Addr12) : fieldT (wordNNN t nnn) = t :=
  BitVec.extractLsb'_append_eq_left

@[simp] theorem fieldNnn_wordNNN (t : BitVec 4) (nnn : Addr12) : fieldNnn (wordNNN t nnn) = nnn :=
  BitVec.extractLsb'_append_eq_right

@[simp] theorem fieldT_wordXKK (t : BitVec 4) (x : Reg) (kk : Byte) : fieldT (wordXKK t x kk) = t :=
  BitVec.extractLsb'_append_eq_left

@[simp] theorem fieldX_wordXKK (t : BitVec 4) (x : Reg) (kk : Byte) : fieldX (wordXKK t x kk) = x := by
  unfold fieldX wordXKK
  rw [BitVec.extractLsb'_append_eq_of_add_le (by decide), BitVec.extractLsb'_append_eq_left]

@[simp] theorem fieldKk_wordXKK (t : BitVec 4) (x : Reg) (kk : Byte) : fieldKk (wordXKK t x kk) = kk := by
  unfold fieldKk wordXKK
  rw [BitVec.extractLsb'_append_eq_of_add_le (by decide), BitVec.extractLsb'_append_eq_right]

@[simp] theorem fieldT_wordXYN (t : BitVec 4) (x y : Reg) (n : BitVec 4) : fieldT (wordXYN t x y n) = t :=
  BitVec.extractLsb'_append_eq_left

@[simp] theorem fieldX_wordXYN (t : BitVec 4) (x y : Reg) (n : BitVec 4) : fieldX (wordXYN t x y n) = x := by
  unfold fieldX wordXYN
  rw [BitVec.extractLsb'_append_eq_of_add_le (by decide), BitVec.extractLsb'_append_eq_left]

@[simp] theorem fieldY_wordXYN (t : BitVec 4) (x y : Reg) (n : BitVec 4) : fieldY (wordXYN t x y n) = y := by
  unfold fieldY wordXYN
  rw [BitVec.extractLsb'_append_eq_of_add_le (by decide), BitVec.extractLsb'_append_eq_of_add_le (by decide),
    BitVec.extractLsb'_append_eq_left]

@[simp] theorem fieldN_wordXYN (t : BitVec 4) (x y : Reg) (n : BitVec 4) : fieldN (wordXYN t x y n) = n := by
  unfold fieldN wordXYN
  rw [BitVec.extractLsb'_append_eq_of_add_le (by decide), BitVec.extractLsb'_append_eq_of_add_le (by decide),
    BitVec.extractLsb'_append_eq_right]

/-! ### The fields against each other -/

/-- `kk` is `y` and `n` (R92: the fields overlap). -/
theorem fieldKk_eq (w : Word) : fieldKk w = BitVec.ofFin (w := 4) (fieldY w) ++ fieldN w := by
  unfold fieldKk fieldY fieldN
  simp only [BitVec.ofFin_toFin]
  rw [join_fields (start₂ := 4) (start₁ := 0) (len₁ := 4) rfl]

/-- `nnn` is `x` and `kk` (R92: the fields overlap). -/
theorem fieldNnn_eq (w : Word) : fieldNnn w = BitVec.ofFin (w := 4) (fieldX w) ++ fieldKk w := by
  unfold fieldNnn fieldX fieldKk
  simp only [BitVec.ofFin_toFin]
  rw [join_fields (start₂ := 8) (start₁ := 0) (len₁ := 8) rfl]

/-! ### What a mask of the table asks of a word (R95, R96) -/

/-- Mask 0xF000 asks for the top nibble. -/
theorem mask_F000 (w : Word) (t : BitVec 4) : w &&& 0xF000#16 = wordNNN t 0 ↔ fieldT w = t := by
  have hm : (0xF000#16 : Word) = wordNNN (BitVec.allOnes 4) 0 := by decide
  constructor
  · intro h
    have := congrArg fieldT h
    rw [fieldT_wordNNN] at this
    rw [← this, hm]
    unfold fieldT wordNNN
    rw [BitVec.extractLsb'_and, BitVec.extractLsb'_append_eq_left, BitVec.and_allOnes]
  · rintro rfl
    conv_lhs => rw [← word_eq_nnn w, hm]
    unfold wordNNN
    rw [BitVec.and_append, BitVec.and_allOnes]
    congr 1
    exact BitVec.and_zero

/-- Mask 0xF0FF asks for the top nibble and the low byte. -/
theorem mask_F0FF (w : Word) (t : BitVec 4) (kk : Byte) :
    w &&& 0xF0FF#16 = wordXKK t 0 kk ↔ fieldT w = t ∧ fieldKk w = kk := by
  have hm : (0xF0FF#16 : Word) = wordXKK (BitVec.allOnes 4) 0 (BitVec.allOnes 8) := by decide
  have key : w &&& 0xF0FF#16 = wordXKK (fieldT w) 0 (fieldKk w) := by
    conv_lhs => rw [← word_eq_xkk w, hm]
    unfold wordXKK
    rw [BitVec.and_append, BitVec.and_append, BitVec.and_allOnes, BitVec.and_allOnes]
    congr 2
    exact BitVec.and_zero
  rw [key]
  constructor
  · intro h
    exact ⟨by simpa using congrArg fieldT h, by simpa using congrArg fieldKk h⟩
  · rintro ⟨rfl, rfl⟩; rfl

/-- Mask 0xF00F asks for the top nibble and the low nibble. -/
theorem mask_F00F (w : Word) (t n : BitVec 4) :
    w &&& 0xF00F#16 = wordXYN t 0 0 n ↔ fieldT w = t ∧ fieldN w = n := by
  have hm : (0xF00F#16 : Word) = wordXYN (BitVec.allOnes 4) 0 0 (BitVec.allOnes 4) := by decide
  have key : w &&& 0xF00F#16 = wordXYN (fieldT w) 0 0 (fieldN w) := by
    conv_lhs => rw [← word_eq_xyn w, hm]
    unfold wordXYN
    rw [BitVec.and_append, BitVec.and_append, BitVec.and_append, BitVec.and_allOnes, BitVec.and_allOnes]
    congr 2
    · exact BitVec.and_zero
    · congr 1
      exact BitVec.and_zero
  rw [key]
  constructor
  · intro h
    exact ⟨by simpa using congrArg fieldT h, by simpa using congrArg fieldN h⟩
  · rintro ⟨rfl, rfl⟩; rfl

/-- Mask 0xFFFF asks for the whole word. -/
theorem mask_FFFF (w : Word) (p : Word) : w &&& 0xFFFF#16 = p ↔ w = p := by
  rw [show (0xFFFF#16 : Word) = BitVec.allOnes 16 from by decide, BitVec.and_allOnes]

/-! ### Bytes -/

/-- The word of its own two bytes in memory order (R90). -/
theorem wordOfBytes_bytesOfWord (w : Word) : wordOfBytes (w.extractLsb' 8 8) (w.extractLsb' 0 8) = w := by
  unfold wordOfBytes
  rw [join_fields (start₂ := 8) (start₁ := 0) (len₁ := 8) rfl]
  exact BitVec.extractLsb'_eq_self

/-- The value of a fetched word: high byte first (`20_memory.md` R62). -/
theorem wordOfBytes_toNat (hi lo : Byte) : (wordOfBytes hi lo).toNat = hi.toNat * 256 + lo.toNat := by
  unfold wordOfBytes
  rw [BitVec.toNat_append, ← Nat.shiftLeft_add_eq_or_of_lt lo.isLt, Nat.shiftLeft_eq]

end Sys2Proof
end

