-- ==== Sys2Proof/Laws/Memory.lean ====
section
/-! SUPPORT. The laws of memory: a read after a write, with no premise on the list, and the canonical form, which every
memory operation keeps. -/

namespace Sys2Proof.Machine

/-! ### Read after write -/

theorem Memory.read_erase (m : Memory) (a b : Nat) :
    (m.erase a).read b = if b = a then Memory.unlisted a else m.read b := by
  unfold Memory.erase
  induction m with
  | nil => simp only [List.filter_nil, Memory.read]; split <;> simp_all
  | cons c rest ih =>
    obtain ⟨k, w⟩ := c
    by_cases hk : k = a
    · subst hk
      simp only [bne_self_eq_false, Bool.false_eq_true, not_false_eq_true, List.filter_cons_of_neg, ih, Memory.read]
      split <;> simp_all [eq_comm]
    · simp only [bne_iff_ne, ne_eq, hk, not_false_eq_true, List.filter_cons_of_pos, Memory.read, ih]
      by_cases hb : k = b
      · subst hb; simp [hk]
      · simp [hb]

theorem Memory.read_insertCell (m : Memory) (a b : Nat) (val : Byte) (h : ∀ c ∈ m, c.1 ≠ a) :
    (Memory.insertCell a val m).read b = if b = a then val else m.read b := by
  induction m with
  | nil => simp only [Memory.insertCell, Memory.read, eq_comm]
  | cons c rest ih =>
    obtain ⟨k, w⟩ := c
    have hk : k ≠ a := h (k, w) (by simp)
    have ih := ih fun c hc => h c (by simp [hc])
    simp only [Memory.insertCell]
    split
    · simp only [Memory.read, eq_comm]
    · simp only [Memory.read, ih]
      by_cases hb : k = b
      · subst hb; simp [hk]
      · simp [hb]

theorem Memory.not_mem_erase (m : Memory) (a : Nat) : ∀ c ∈ m.erase a, c.1 ≠ a := by
  intro c hc
  simp only [Memory.erase, List.mem_filter, bne_iff_ne] at hc
  exact hc.2

/-- What a byte store changes: the one cell, if it exists (`20_memory.md` R67, R68). -/
@[simp] theorem Memory.read_write (m : Memory) (a b : Nat) (val : Byte) :
    (m.write a val).read b = if b = a ∧ a < Config.memSize then val else m.read b := by
  unfold Memory.write
  by_cases ha : a < Config.memSize
  · simp only [ha, if_true, and_true]
    split
    · rename_i hv; rw [Memory.read_erase]; simp only [hv]
    · rw [Memory.read_insertCell _ _ _ _ (Memory.not_mem_erase m a), Memory.read_erase]
      by_cases hb : b = a <;> simp [hb]
  · simp [ha]

/-- What storing bytes at ascending addresses changes. -/
theorem Memory.read_load (m : Memory) (a : Nat) (bs : List Byte) (b : Nat) :
    (m.load a bs).read b = if h : a ≤ b ∧ b < a + bs.length ∧ b < Config.memSize then bs[b - a]'(by omega) else m.read b := by
  induction bs generalizing m a with
  | nil => simp [Memory.load]; omega
  | cons x bs ih =>
    simp only [Memory.load, ih, Memory.read_write, List.length_cons]
    by_cases h0 : b = a
    · subst h0
      by_cases hm : b < Config.memSize
      · have h2 : b ≤ b ∧ b < b + (bs.length + 1) ∧ b < Config.memSize := by omega
        simp [h2]
      · have h1 : ¬(b + 1 ≤ b ∧ b < b + 1 + bs.length ∧ b < Config.memSize) := by omega
        have h2 : ¬(b ≤ b ∧ b < b + (bs.length + 1) ∧ b < Config.memSize) := by omega
        rw [dif_neg h1, dif_neg h2, if_neg (fun h => hm h.2)]
    · by_cases h1 : a + 1 ≤ b ∧ b < a + 1 + bs.length ∧ b < Config.memSize
      · have h2 : a ≤ b ∧ b < a + (bs.length + 1) ∧ b < Config.memSize := by omega
        have h3 : b - a = (b - (a + 1)) + 1 := by omega
        simp only [dif_pos h1, dif_pos h2, h3, List.getElem_cons_succ]
      · have h2 : ¬(a ≤ b ∧ b < a + (bs.length + 1) ∧ b < Config.memSize) := by omega
        simp only [dif_neg h1, dif_neg h2, h0, false_and, if_false]

/-! ### The canonical form -/

theorem Memory.wfFrom_mono {m : Memory} {lo lo' : Nat} (h : lo' ≤ lo) (hm : Memory.wfFrom lo m = true) :
    Memory.wfFrom lo' m = true := by
  cases m with
  | nil => rfl
  | cons c rest =>
    obtain ⟨k, w⟩ := c
    simp only [Memory.wfFrom, Bool.and_eq_true, decide_eq_true_eq] at hm ⊢
    exact ⟨⟨⟨by omega, hm.1.1.2⟩, hm.1.2⟩, hm.2⟩

theorem Memory.wfFrom_erase {m : Memory} {lo : Nat} (a : Nat) (hm : Memory.wfFrom lo m = true) :
    Memory.wfFrom lo (m.erase a) = true := by
  unfold Memory.erase
  induction m generalizing lo with
  | nil => rfl
  | cons c rest ih =>
    obtain ⟨k, w⟩ := c
    simp only [Memory.wfFrom, Bool.and_eq_true, decide_eq_true_eq, bne_iff_ne] at hm
    by_cases hk : k = a
    · simp only [hk, bne_self_eq_false, Bool.false_eq_true, not_false_eq_true, List.filter_cons_of_neg]
      exact Memory.wfFrom_mono (by omega) (ih hm.2)
    · simp only [bne_iff_ne, ne_eq, hk, not_false_eq_true, List.filter_cons_of_pos, Memory.wfFrom, Bool.and_eq_true,
        decide_eq_true_eq]
      exact ⟨hm.1, ih hm.2⟩

theorem Memory.wfFrom_insertCell {m : Memory} {lo a : Nat} {val : Byte} (hlo : lo ≤ a) (ha : a < Config.memSize)
    (hv : val ≠ Memory.unlisted a) (hne : ∀ c ∈ m, c.1 ≠ a) (hm : Memory.wfFrom lo m = true) :
    Memory.wfFrom lo (Memory.insertCell a val m) = true := by
  induction m generalizing lo with
  | nil => simp [Memory.insertCell, Memory.wfFrom, hlo, ha, hv]
  | cons c rest ih =>
    obtain ⟨k, w⟩ := c
    have hk : k ≠ a := hne (k, w) (by simp)
    simp only [Memory.wfFrom, Bool.and_eq_true, decide_eq_true_eq] at hm
    simp only [Memory.insertCell]
    split
    · simp only [Memory.wfFrom, Bool.and_eq_true, decide_eq_true_eq, bne_iff_ne]
      exact ⟨⟨⟨hlo, ha⟩, hv⟩, ⟨⟨by omega, hm.1.1.2⟩, bne_iff_ne.mp hm.1.2⟩, hm.2⟩
    · simp only [Memory.wfFrom, Bool.and_eq_true, decide_eq_true_eq]
      exact ⟨hm.1, ih (by omega) (fun c hc => hne c (by simp [hc])) hm.2⟩

/-- A store keeps the canonical form. -/
theorem Memory.wf_write {m : Memory} (a : Nat) (val : Byte) (hm : m.wf = true) : (m.write a val).wf = true := by
  unfold Memory.write
  split
  · rename_i ha
    split
    · exact Memory.wfFrom_erase a hm
    · rename_i hv
      exact Memory.wfFrom_insertCell (Nat.zero_le a) ha hv (Memory.not_mem_erase m a) (Memory.wfFrom_erase a hm)
  · exact hm

/-- Storing bytes keeps the canonical form. -/
theorem Memory.wf_load {m : Memory} (a : Nat) (bs : List Byte) (hm : m.wf = true) : (m.load a bs).wf = true := by
  induction bs generalizing m a with
  | nil => exact hm
  | cons b bs ih => exact ih (a + 1) (Memory.wf_write a b hm)

/-- Memory right after reset has the canonical form. -/
theorem Memory.wf_reset : State.reset.mem.wf = true := rfl

theorem Memory.read_ext_of_wfFrom {m m' : Memory} {lo : Nat} (hm : Memory.wfFrom lo m = true)
    (hm' : Memory.wfFrom lo m' = true) (h : ∀ a, lo ≤ a → m.read a = m'.read a) : m = m' := by
  have below : ∀ (q : Memory) (l a : Nat), Memory.wfFrom l q = true → a < l → q.read a = Memory.unlisted a := by
    intro q
    induction q with
    | nil => intros; rfl
    | cons c rest ih =>
      intro l a hq hal
      obtain ⟨k, w⟩ := c
      simp only [Memory.wfFrom, Bool.and_eq_true, decide_eq_true_eq] at hq
      have hne : k ≠ a := by omega
      simp only [Memory.read, hne, if_false]
      exact ih (k + 1) a hq.2 (by omega)
  induction m generalizing m' lo with
  | nil =>
    cases m' with
    | nil => rfl
    | cons c rest =>
      obtain ⟨k, w⟩ := c
      simp only [Memory.wfFrom, Bool.and_eq_true, decide_eq_true_eq, bne_iff_ne] at hm'
      have := h k hm'.1.1.1
      simp only [Memory.read, if_true] at this
      exact absurd this.symm hm'.1.2
  | cons c rest ih =>
    obtain ⟨k, w⟩ := c
    simp only [Memory.wfFrom, Bool.and_eq_true, decide_eq_true_eq, bne_iff_ne] at hm
    cases m' with
    | nil =>
      have := h k hm.1.1.1
      simp only [Memory.read, if_true] at this
      exact absurd this hm.1.2
    | cons c' rest' =>
      obtain ⟨k', w'⟩ := c'
      simp only [Memory.wfFrom, Bool.and_eq_true, decide_eq_true_eq, bne_iff_ne] at hm'
      rcases Nat.lt_trichotomy k k' with hlt | heq | hgt
      · have := h k hm.1.1.1
        have hne : k' ≠ k := by omega
        simp only [Memory.read, if_true, hne, if_false, below rest' (k' + 1) k hm'.2 (by omega)] at this
        exact absurd this hm.1.2
      · subst heq
        have hw := h k hm.1.1.1
        simp only [Memory.read, if_true] at hw
        subst hw
        congr 1
        refine ih hm.2 hm'.2 fun a ha => ?_
        have := h a (by omega)
        have hne : k ≠ a := by omega
        simpa only [Memory.read, hne, if_false] using this
      · have := h k' hm'.1.1.1
        have hne : k ≠ k' := by omega
        simp only [Memory.read, if_true, hne, if_false, below rest (k + 1) k' hm.2 (by omega)] at this
        exact absurd this.symm hm'.1.2

/-- Equal memories are equal data: two canonical memories that read alike are the same list. -/
theorem Memory.eq_of_read {m m' : Memory} (hm : m.wf = true) (hm' : m'.wf = true) (h : ∀ a, m.read a = m'.read a) : m = m' :=
  Memory.read_ext_of_wfFrom hm hm' fun a _ => h a

end Sys2Proof.Machine
end

