-- ==== Sys2Proof/Laws/Ops.lean ====
section
/-! SUPPORT. For each shared operation, once, everything it can do. -/

namespace Sys2Proof.Machine

/-! ### Faults -/

theorem saturate16_of_lt {n : Nat} (h : n < 0x10000) : saturate16 n = BitVec.ofNat 16 n := by
  unfold saturate16; congr 1; omega

@[simp] theorem saturate16_toNat (w : Word) : saturate16 w.toNat = w := by
  rw [saturate16_of_lt w.isLt, BitVec.ofNat_toNat, BitVec.setWidth_eq]

/-- Raising a fault is writing `FAULT` (`60_exceptions.md` R256). -/
theorem State.raise_eq (s : State) (k : FaultKind) (n : Nat) : s.raise k n = s.faultedWith k (saturate16 n) := rfl

theorem State.inBounds_pos (s : State) {top : Nat} (h : top < 4096) (k : State → State) : s.inBounds top k = k s :=
  if_neg (by simpa [Config.memSize] using h)

theorem State.inBounds_neg (s : State) {top : Nat} (h : 4096 ≤ top) (k : State → State) :
    s.inBounds top k = s.faultedWith .outOfBounds (saturate16 top) := if_pos h

/-- The bounds check raises or goes on, and nothing else (`20_memory.md` R68). -/
theorem State.inBounds_cases (s : State) (top : Nat) (k : State → State) :
    (top < 4096 ∧ s.inBounds top k = k s) ∨
      (4096 ≤ top ∧ s.inBounds top k = s.faultedWith .outOfBounds (saturate16 top)) := by
  rcases Nat.lt_or_ge top 4096 with h | h
  · exact .inl ⟨h, s.inBounds_pos h k⟩
  · exact .inr ⟨h, s.inBounds_neg h k⟩

/-- The key operand raises or goes on, and nothing else (`45_keypad_timer_random.md` R232). -/
theorem State.withKey_cases (s : State) (x : Reg) (k : Bool → State) :
    ((s.getV x).toNat ≤ 15 ∧ s.withKey x k = k (s.keyDown (s.getV x).toNat)) ∨
      (15 < (s.getV x).toNat ∧ s.withKey x k = s.faultedWith .outOfBounds ((s.getV x).setWidth 16)) := by
  unfold State.withKey
  rcases Nat.lt_or_ge (s.getV x).toNat 16 with h | h
  · exact .inl ⟨by omega, if_pos h⟩
  · refine .inr ⟨h, ?_⟩
    rw [if_neg (by simp only [Config.numKeys]; omega), State.raise_eq, saturate16_of_lt (by have := (s.getV x).isLt; omega),
      BitVec.ofNat_toNat]

/-! ### The call stack -/

/-- A push raises, or writes the slot `SP` names and moves `SP` up by one (`10_state.md` R25). -/
theorem State.push_cases (s : State) (a : Word) (k : State → State) :
    (∃ t, s.sp.val < 16 ∧ s.push a k = k t ∧ t.sp.val = s.sp.val + 1 ∧
        (∀ j, t.slot j = if j.val = s.sp.val then a else s.slot j) ∧ SameBut [.stack] s t ∧ t.pc = s.pc ∧
        t = { s with stack := t.stack, sp := t.sp }) ∨
      (s.sp.val = 16 ∧ s.push a k = s.faultedWith .stackFault 16) := by
  unfold State.push
  by_cases h : s.sp.val < 16
  · refine .inl ⟨{ s with stack := s.stack.set s.sp.val a, sp := ⟨s.sp.val + 1, by omega⟩ }, h, dif_pos h, rfl, ?_, ?_, rfl, rfl⟩
    · intro j
      simp only [State.slot, Vector.getElem_set, eq_comm]
    · intro p hp
      cases p <;> first | exact fun _ => rfl | rfl | exact fun _ _ => rfl | exact ⟨rfl, rfl, rfl, rfl⟩ | simp at hp
  · have hsp : s.sp.val = 16 := by have := s.sp.isLt; omega
    refine .inr ⟨hsp, ?_⟩
    rw [dif_neg h, State.raise_eq, hsp]
    rfl

/-- A pop raises, or moves `SP` down by one and reads the slot it then names, which keeps its content (R25). -/
theorem State.pop_cases (s : State) (k : Word → State → State) :
    (∃ (t : State) (j : Fin 16), 0 < s.sp.val ∧ j.val + 1 = s.sp.val ∧ s.pop k = k (s.slot j) t ∧ t.sp.val = j.val ∧
        (∀ i, t.slot i = s.slot i) ∧ SameBut [.stack] s t ∧ t.pc = s.pc ∧ t = { s with sp := t.sp }) ∨
      (s.sp.val = 0 ∧ s.pop k = s.faultedWith .stackFault 0) := by
  unfold State.pop
  by_cases h : 0 < s.sp.val
  · refine .inl ⟨{ s with sp := ⟨s.sp.val - 1, by omega⟩ }, ⟨s.sp.val - 1, by omega⟩, h, by simp only; omega, dif_pos h, rfl,
      fun _ => rfl, ?_, rfl, rfl⟩
    intro p hp
    cases p <;> first | exact fun _ => rfl | rfl | exact fun _ _ => rfl | exact ⟨rfl, rfl, rfl, rfl⟩ | simp at hp
  · have hsp : s.sp.val = 0 := by omega
    refine .inr ⟨hsp, ?_⟩
    rw [dif_neg h, State.raise_eq, hsp]
    rfl

/-! ### Memory blocks -/

/-- Storing a block changes only memory. -/
theorem State.storeBlock_eq (s : State) (k : Nat) : s.storeBlock k = { s with mem := (s.storeBlock k).mem } := by
  induction k with
  | zero => rfl
  | succ k ih =>
    simp only [State.storeBlock]
    split
    · rw [State.writeByte, ih]
    · exact ih

/-- What storing the first `k` registers leaves in memory (`43_index_memory.md` R195). -/
theorem State.readByte_storeBlock (s : State) {k : Nat} (hk : k ≤ 16) (a : Nat) :
    (s.storeBlock k).readByte a =
      if h : s.index.toNat ≤ a ∧ a < s.index.toNat + k ∧ a < 4096 then s.getV ⟨a - s.index.toNat, by omega⟩
      else s.readByte a := by
  induction k with
  | zero => rw [dif_neg (by omega)]; rfl
  | succ k ih =>
    have hlt : k < 16 := by omega
    have ih := ih (by omega)
    simp only [State.readByte] at ih
    simp only [State.storeBlock, dif_pos hlt, State.readByte, State.writeByte, Memory.read_write, State.effAddr,
      Config.memSize, ih]
    by_cases h0 : a = s.index.toNat + k
    · subst h0
      by_cases hm : s.index.toNat + k < 4096
      · rw [if_pos ⟨rfl, hm⟩, dif_pos (by omega)]
        congr 2; omega
      · rw [if_neg (by omega), dif_neg (by omega), dif_neg (by omega)]
    · rw [if_neg (by omega)]
      by_cases h1 : s.index.toNat ≤ a ∧ a < s.index.toNat + k ∧ a < 4096
      · rw [dif_pos h1, dif_pos (by omega)]
      · rw [dif_neg h1, dif_neg (by omega)]

/-- Storing a block keeps the canonical form of memory. -/
theorem State.wf_storeBlock (s : State) (k : Nat) (h : s.mem.wf = true) : (s.storeBlock k).mem.wf = true := by
  induction k with
  | zero => exact h
  | succ k ih =>
    simp only [State.storeBlock]
    split
    · exact Memory.wf_write _ _ ih
    · exact ih

/-- Loading a block changes only the registers. -/
theorem State.loadBlock_eq (s : State) (k : Nat) : s.loadBlock k = { s with v := (s.loadBlock k).v } := by
  induction k with
  | zero => rfl
  | succ k ih =>
    simp only [State.loadBlock]
    split
    · rw [State.setV, ih]
    · exact ih

/-- What loading the first `k` registers leaves in the registers (R196). -/
theorem State.getV_loadBlock (s : State) {k : Nat} (hk : k ≤ 16) (r : Reg) :
    (s.loadBlock k).getV r = if r.val < k then s.readByte (s.index.toNat + r.val) else s.getV r := by
  induction k with
  | zero => rfl
  | succ k ih =>
    have hlt : k < 16 := by omega
    simp only [State.loadBlock, dif_pos hlt, State.getV_setV, ih (by omega), State.effAddr, Fin.ext_iff]
    by_cases h0 : r.val = k
    · subst h0; simp
    · simp only [h0, if_false]
      by_cases h1 : r.val < k
      · rw [if_pos h1, if_pos (by omega)]
      · rw [if_neg h1, if_neg (by omega)]

/-! ### The end of a step -/

/-- A faulted instruction ends its step with nothing more. -/
theorem State.endStep_of_fault {s : State} {f : FaultRecord} (h : s.fault = some f) : s.endStep = s := by
  simp only [State.endStep, h]

/-- An unfaulted instruction ends its step with the tick and the next input. -/
theorem State.endStep_of_none {s : State} (h : s.fault = none) : s.endStep = s.tick.nextInput := by
  simp only [State.endStep, h]

/-- The end of a step changes timers and inputs only. -/
theorem State.endStep_same (s : State) : SameBut [.dt, .st, .inputs] s s.endStep ∧ s.endStep.pc = s.pc ∧
    s.endStep.mem = s.mem ∧ s.endStep.stack = s.stack := by
  cases h : s.fault with
  | some f =>
    rw [State.endStep_of_fault h]
    refine ⟨fun p _ => ?_, rfl, rfl, rfl⟩
    cases p <;> first | exact fun _ => rfl | rfl | exact fun _ _ => rfl | exact ⟨rfl, rfl, rfl, rfl⟩ | exact ⟨rfl, fun _ => rfl⟩
  | none =>
    rw [State.endStep_of_none h]
    refine ⟨fun p hp => ?_, by simp, by simp, by simp⟩
    cases p <;> simp [Piece.Same, State.slot, State.pixel, State.readByte] at hp ⊢

/-! ### The pressed key -/

theorem State.lowestKeyFrom_spec (s : State) (k fuel : Nat) :
    (s.lowestKeyFrom k fuel = none ∧ ∀ j, k ≤ j → j < k + fuel → s.keyDown j = false) ∨
      (∃ j, s.lowestKeyFrom k fuel = some j ∧ k ≤ j ∧ j < k + fuel ∧ s.keyDown j = true ∧
        ∀ i, k ≤ i → i < j → s.keyDown i = false) := by
  induction fuel generalizing k with
  | zero => exact .inl ⟨rfl, fun j h1 h2 => by omega⟩
  | succ fuel ih =>
    simp only [State.lowestKeyFrom]
    by_cases hk : s.keyDown k = true
    · exact .inr ⟨k, by rw [if_pos hk], by omega, by omega, hk, fun i h1 h2 => by omega⟩
    · rw [if_neg hk]
      have hk' : s.keyDown k = false := by simpa using hk
      rcases ih (k + 1) with ⟨h, hall⟩ | ⟨j, h, hlo, hhi, hj, hall⟩
      · refine .inl ⟨h, fun j h1 h2 => ?_⟩
        by_cases he : j = k
        · rw [he]; exact hk'
        · exact hall j (by omega) (by omega)
      · refine .inr ⟨j, h, by omega, by omega, hj, fun i h1 h2 => ?_⟩
        by_cases he : i = k
        · rw [he]; exact hk'
        · exact hall i (by omega) h2

/-- `wait-key` reports the lowest pressed key, or none when no key is down (R235). -/
theorem State.pressedKey_spec (s : State) :
    (s.pressedKey = none ∧ ∀ j, j < 16 → s.keyDown j = false) ∨
      (∃ j, s.pressedKey = some j ∧ j < 16 ∧ s.keyDown j = true ∧ ∀ i, i < j → s.keyDown i = false) := by
  rcases s.lowestKeyFrom_spec 0 16 with ⟨h, hall⟩ | ⟨j, h, -, hhi, hj, hall⟩
  · exact .inl ⟨h, fun j hj => hall j (by omega) (by omega)⟩
  · exact .inr ⟨j, h, by omega, hj, fun i hi => hall i (by omega) hi⟩

end Sys2Proof.Machine
end

