-- ==== Sys2Proof/Laws/PerInstr.lean ====
section
/-! SUPPORT. Statements made of every instruction, one lemma per constructor: the word of an instruction is a word of its own
row of the opcode table (`30_encoding.md` R91, R95, R96). -/

namespace Sys2Proof.Laws

/-- The encoder puts an instruction into the row of the table that has its name. -/
def InTable.Statement (i : Instr) : Prop :=
  ∃ row ∈ opcodeTable, row.mnemonic = i.mnemonic ∧ row.selects (encode i) = true

/-- A row of the table, by its number from 0. -/
theorem InTable.intro (i : Instr) (k : Fin 34) (hname : (opcodeTable[k.val]'(by have := k.isLt; exact this)).mnemonic = i.mnemonic)
    (h : encode i &&& (opcodeTable[k.val]'(by have := k.isLt; exact this)).mask
      = (opcodeTable[k.val]'(by have := k.isLt; exact this)).pattern) : InTable.Statement i :=
  ⟨_, List.getElem_mem _, hname, by rw [OpcodeRow.selects, h, beq_self_eq_true]⟩

theorem InTable.clear : InTable.Statement (.clear) :=
  InTable.intro _ 0 rfl (by decide)

theorem InTable.ret : InTable.Statement (.ret) :=
  InTable.intro _ 1 rfl (by decide)

theorem InTable.jump (nnn : Addr12) : InTable.Statement (.jump nnn) :=
  InTable.intro _ 2 rfl ((mask_F000 _ 0x1#4).mpr (by simp [encode]))

theorem InTable.call (nnn : Addr12) : InTable.Statement (.call nnn) :=
  InTable.intro _ 3 rfl ((mask_F000 _ 0x2#4).mpr (by simp [encode]))

theorem InTable.skipEqImm (x : Reg) (kk : Byte) : InTable.Statement (.skipEqImm x kk) :=
  InTable.intro _ 4 rfl ((mask_F000 _ 0x3#4).mpr (by simp [encode]))

theorem InTable.skipNeImm (x : Reg) (kk : Byte) : InTable.Statement (.skipNeImm x kk) :=
  InTable.intro _ 5 rfl ((mask_F000 _ 0x4#4).mpr (by simp [encode]))

theorem InTable.skipEqReg (x y : Reg) : InTable.Statement (.skipEqReg x y) :=
  InTable.intro _ 6 rfl ((mask_F00F _ 0x5#4 0x0#4).mpr (by simp [encode]))

theorem InTable.loadImm (x : Reg) (kk : Byte) : InTable.Statement (.loadImm x kk) :=
  InTable.intro _ 7 rfl ((mask_F000 _ 0x6#4).mpr (by simp [encode]))

theorem InTable.addImm (x : Reg) (kk : Byte) : InTable.Statement (.addImm x kk) :=
  InTable.intro _ 8 rfl ((mask_F000 _ 0x7#4).mpr (by simp [encode]))

theorem InTable.copy (x y : Reg) : InTable.Statement (.copy x y) :=
  InTable.intro _ 9 rfl ((mask_F00F _ 0x8#4 0x0#4).mpr (by simp [encode]))

theorem InTable.or (x y : Reg) : InTable.Statement (.or x y) :=
  InTable.intro _ 10 rfl ((mask_F00F _ 0x8#4 0x1#4).mpr (by simp [encode]))

theorem InTable.and (x y : Reg) : InTable.Statement (.and x y) :=
  InTable.intro _ 11 rfl ((mask_F00F _ 0x8#4 0x2#4).mpr (by simp [encode]))

theorem InTable.xor (x y : Reg) : InTable.Statement (.xor x y) :=
  InTable.intro _ 12 rfl ((mask_F00F _ 0x8#4 0x3#4).mpr (by simp [encode]))

theorem InTable.addReg (x y : Reg) : InTable.Statement (.addReg x y) :=
  InTable.intro _ 13 rfl ((mask_F00F _ 0x8#4 0x4#4).mpr (by simp [encode]))

theorem InTable.sub (x y : Reg) : InTable.Statement (.sub x y) :=
  InTable.intro _ 14 rfl ((mask_F00F _ 0x8#4 0x5#4).mpr (by simp [encode]))

theorem InTable.shr (x y : Reg) : InTable.Statement (.shr x y) :=
  InTable.intro _ 15 rfl ((mask_F00F _ 0x8#4 0x6#4).mpr (by simp [encode]))

theorem InTable.subn (x y : Reg) : InTable.Statement (.subn x y) :=
  InTable.intro _ 16 rfl ((mask_F00F _ 0x8#4 0x7#4).mpr (by simp [encode]))

theorem InTable.shl (x y : Reg) : InTable.Statement (.shl x y) :=
  InTable.intro _ 17 rfl ((mask_F00F _ 0x8#4 0xE#4).mpr (by simp [encode]))

theorem InTable.skipNeReg (x y : Reg) : InTable.Statement (.skipNeReg x y) :=
  InTable.intro _ 18 rfl ((mask_F00F _ 0x9#4 0x0#4).mpr (by simp [encode]))

theorem InTable.loadIndex (nnn : Addr12) : InTable.Statement (.loadIndex nnn) :=
  InTable.intro _ 19 rfl ((mask_F000 _ 0xA#4).mpr (by simp [encode]))

theorem InTable.jumpOffset (nnn : Addr12) : InTable.Statement (.jumpOffset nnn) :=
  InTable.intro _ 20 rfl ((mask_F000 _ 0xB#4).mpr (by simp [encode]))

theorem InTable.randAnd (x : Reg) (kk : Byte) : InTable.Statement (.randAnd x kk) :=
  InTable.intro _ 21 rfl ((mask_F000 _ 0xC#4).mpr (by simp [encode]))

theorem InTable.draw (x y : Reg) (n : BitVec 4) : InTable.Statement (.draw x y n) :=
  InTable.intro _ 22 rfl ((mask_F000 _ 0xD#4).mpr (by simp [encode]))

theorem InTable.skipIfPressed (x : Reg) : InTable.Statement (.skipIfPressed x) :=
  InTable.intro _ 23 rfl ((mask_F0FF _ 0xE#4 0x9E#8).mpr (by simp [encode]))

theorem InTable.skipIfNotPressed (x : Reg) : InTable.Statement (.skipIfNotPressed x) :=
  InTable.intro _ 24 rfl ((mask_F0FF _ 0xE#4 0xA1#8).mpr (by simp [encode]))

theorem InTable.readDelay (x : Reg) : InTable.Statement (.readDelay x) :=
  InTable.intro _ 25 rfl ((mask_F0FF _ 0xF#4 0x07#8).mpr (by simp [encode]))

theorem InTable.waitKey (x : Reg) : InTable.Statement (.waitKey x) :=
  InTable.intro _ 26 rfl ((mask_F0FF _ 0xF#4 0x0A#8).mpr (by simp [encode]))

theorem InTable.setDelay (x : Reg) : InTable.Statement (.setDelay x) :=
  InTable.intro _ 27 rfl ((mask_F0FF _ 0xF#4 0x15#8).mpr (by simp [encode]))

theorem InTable.setSound (x : Reg) : InTable.Statement (.setSound x) :=
  InTable.intro _ 28 rfl ((mask_F0FF _ 0xF#4 0x18#8).mpr (by simp [encode]))

theorem InTable.addIndex (x : Reg) : InTable.Statement (.addIndex x) :=
  InTable.intro _ 29 rfl ((mask_F0FF _ 0xF#4 0x1E#8).mpr (by simp [encode]))

theorem InTable.glyphAddr (x : Reg) : InTable.Statement (.glyphAddr x) :=
  InTable.intro _ 30 rfl ((mask_F0FF _ 0xF#4 0x29#8).mpr (by simp [encode]))

theorem InTable.toBcd (x : Reg) : InTable.Statement (.toBcd x) :=
  InTable.intro _ 31 rfl ((mask_F0FF _ 0xF#4 0x33#8).mpr (by simp [encode]))

theorem InTable.storeRegs (x : Reg) : InTable.Statement (.storeRegs x) :=
  InTable.intro _ 32 rfl ((mask_F0FF _ 0xF#4 0x55#8).mpr (by simp [encode]))

theorem InTable.loadRegs (x : Reg) : InTable.Statement (.loadRegs x) :=
  InTable.intro _ 33 rfl ((mask_F0FF _ 0xF#4 0x65#8).mpr (by simp [encode]))

end Sys2Proof.Laws
end

