-- ==== Sys2Proof/Laws/Screen.lean ====
section
/-! SUPPORT. The laws of the frame buffer and of sprite drawing (`44_display.md` R210 to R212). -/

namespace Sys2Proof.Machine

/-- A pixel after another was XORed. -/
@[simp] theorem FrameBuffer.pixel_flip (f : FrameBuffer) (r r' : Fin 32) (c c' : Fin 64) :
    (f.flip r c).pixel r' c' = if r' = r ∧ c' = c then !f.pixel r c else f.pixel r' c' := by
  by_cases hr : r' = r
  · subst hr
    by_cases hc : c' = c
    · subst hc; simp [FrameBuffer.flip, FrameBuffer.pixel]
    · have : ¬c.val = c'.val := fun h => hc (Fin.ext h.symm)
      simp [FrameBuffer.flip, FrameBuffer.pixel, hc, this]
  · have : ¬r.val = r'.val := fun h => hr (Fin.ext h.symm)
    simp [FrameBuffer.flip, FrameBuffer.pixel, hr, this]

/-- The blank buffer is off everywhere (R211, `10_state.md` R34). -/
@[simp] theorem FrameBuffer.pixel_blank (r : Fin 32) (c : Fin 64) : FrameBuffer.blank.pixel r c = false := by
  simp [FrameBuffer.blank, FrameBuffer.pixel]

/-- Buffers with the same pixels are the same buffer. -/
theorem FrameBuffer.ext_pixel {f g : FrameBuffer} (h : ∀ r c, f.pixel r c = g.pixel r c) : f = g := by
  refine Vector.ext fun i hi => Vector.ext fun j hj => ?_
  exact h ⟨i, hi⟩ ⟨j, hj⟩

/-- Two columns of one sprite byte never meet (R212 d). -/
theorem wrapCol_inj {cx i j : Nat} (hi : i < 8) (hj : j < 8) (h : wrapCol cx i = wrapCol cx j) : i = j := by
  simp only [wrapCol, Fin.mk.injEq] at h
  omega

/-- Two rows of one sprite never meet (R212 d). -/
theorem wrapRow_inj {cy i j : Nat} (hi : i < 32) (hj : j < 32) (h : wrapRow cy i = wrapRow cy j) : i = j := by
  simp only [wrapRow, Fin.mk.injEq] at h
  omega

/-- What drawing some bits of one sprite byte does: a pixel a set bit lands on is XORed, every other is unchanged, and the
flag is raised by a set bit that lands on an on pixel. -/
theorem drawBits_spec (b : Byte) (r : Fin 32) (cx : Nat) (d : DrawAcc) {k : Nat} (hk : k ≤ 8) :
    (∀ r' c', (r' = r ∧ ∃ j, j < k ∧ wrapCol cx j = c' ∧ b.getLsbD (7 - j) = true) →
      (drawBits b r cx d k).fb.pixel r' c' = !d.fb.pixel r' c') ∧
    (∀ r' c', ¬(r' = r ∧ ∃ j, j < k ∧ wrapCol cx j = c' ∧ b.getLsbD (7 - j) = true) →
      (drawBits b r cx d k).fb.pixel r' c' = d.fb.pixel r' c') ∧
    ((drawBits b r cx d k).hit = true ↔
      d.hit = true ∨ ∃ j, j < k ∧ b.getLsbD (7 - j) = true ∧ d.fb.pixel r (wrapCol cx j) = true) := by
  induction k with
  | zero => refine ⟨?_, ?_, ?_⟩ <;> simp [drawBits]
  | succ k ih =>
    obtain ⟨ihOn, ihOff, ihHit⟩ := ih (by omega)
    simp only [drawBits]
    by_cases hb : b.getLsbD (7 - k) = true
    · have hfresh : (drawBits b r cx d k).fb.pixel r (wrapCol cx k) = d.fb.pixel r (wrapCol cx k) := by
        refine ihOff _ _ ?_
        rintro ⟨-, j, hj, hw, -⟩
        have := wrapCol_inj (by omega) (by omega) hw
        omega
      simp only [hb, if_true, DrawAcc.plot, FrameBuffer.pixel_flip, hfresh]
      refine ⟨?_, ?_, ?_⟩
      · rintro r' c' ⟨rfl, j, hj, rfl, hbit⟩
        by_cases hjk : j = k
        · subst hjk; simp
        · have hne : wrapCol cx j ≠ wrapCol cx k := fun h => hjk (wrapCol_inj (by omega) (by omega) h)
          simp only [hne, and_false, if_false]
          exact ihOn _ _ ⟨rfl, j, by omega, rfl, hbit⟩
      · intro r' c' hno
        have h1 : ¬(r' = r ∧ c' = wrapCol cx k) := fun h => hno ⟨h.1, k, by omega, h.2.symm, hb⟩
        rw [if_neg h1]
        exact ihOff _ _ fun ⟨h, j, hj, hw, hbit⟩ => hno ⟨h, j, by omega, hw, hbit⟩
      · simp only [Bool.or_eq_true, ihHit]
        constructor
        · rintro ((h | ⟨j, hj, h⟩) | h)
          · exact .inl h
          · exact .inr ⟨j, by omega, h⟩
          · exact .inr ⟨k, by omega, hb, h⟩
        · rintro (h | ⟨j, hj, hbit, h⟩)
          · exact .inl (.inl h)
          · by_cases hjk : j = k
            · subst hjk; exact .inr h
            · exact .inl (.inr ⟨j, by omega, hbit, h⟩)
    · simp only [hb, Bool.false_eq_true, if_false]
      refine ⟨?_, ?_, ?_⟩
      · rintro r' c' ⟨rfl, j, hj, rfl, hbit⟩
        have hjk : j ≠ k := fun h => hb (h ▸ hbit)
        exact ihOn _ _ ⟨rfl, j, by omega, rfl, hbit⟩
      · intro r' c' hno
        exact ihOff _ _ fun ⟨h, j, hj, hw, hbit⟩ => hno ⟨h, j, by omega, hw, hbit⟩
      · rw [ihHit]
        constructor
        · rintro (h | ⟨j, hj, h⟩)
          · exact .inl h
          · exact .inr ⟨j, by omega, h⟩
        · rintro (h | ⟨j, hj, hbit, h⟩)
          · exact .inl h
          · have hjk : j ≠ k := fun he => hb (he ▸ hbit)
            exact .inr ⟨j, by omega, hbit, h⟩

/-- A set bit of the sprite at screen coordinates, in the operation's own terms. -/
def State.LandsOn (s : State) (cx cy n : Nat) (r : Fin 32) (c : Fin 64) : Prop :=
  ∃ row col : Nat, row < n ∧ col < 8 ∧ wrapRow cy row = r ∧ wrapCol cx col = c ∧
    (s.readByte (s.effAddr row)).getLsbD (7 - col) = true

/-- What drawing some rows of the sprite does (R212): a pixel a set bit lands on is XORed, every other is unchanged, and the
flag is raised by a set bit that lands on an on pixel. -/
theorem State.drawRows_spec (s : State) (cx cy : Nat) (d : DrawAcc) {k : Nat} (hk : k ≤ 32) :
    (∀ r c, s.LandsOn cx cy k r c → (s.drawRows cx cy d k).fb.pixel r c = !d.fb.pixel r c) ∧
    (∀ r c, ¬s.LandsOn cx cy k r c → (s.drawRows cx cy d k).fb.pixel r c = d.fb.pixel r c) ∧
    ((s.drawRows cx cy d k).hit = true ↔ d.hit = true ∨ ∃ r c, s.LandsOn cx cy k r c ∧ d.fb.pixel r c = true) := by
  induction k with
  | zero => refine ⟨?_, ?_, ?_⟩ <;> simp [State.LandsOn, State.drawRows]
  | succ k ih =>
    obtain ⟨ihOn, ihOff, ihHit⟩ := ih (by omega)
    obtain ⟨bOn, bOff, bHit⟩ :=
      drawBits_spec (s.readByte (s.effAddr k)) (wrapRow cy k) cx (s.drawRows cx cy d k) (Nat.le_refl 8)
    simp only [State.drawRows]
    have hfresh : ∀ c, (s.drawRows cx cy d k).fb.pixel (wrapRow cy k) c = d.fb.pixel (wrapRow cy k) c := by
      intro c
      refine ihOff _ _ ?_
      rintro ⟨i, j, hi, -, hw, -⟩
      have := wrapRow_inj (by omega) (by omega) hw
      omega
    refine ⟨?_, ?_, ?_⟩
    · rintro r c ⟨i, j, hi, hj, rfl, rfl, hbit⟩
      by_cases hik : i = k
      · subst hik
        rw [bOn _ _ ⟨rfl, j, hj, rfl, hbit⟩, hfresh]
      · have hne : wrapRow cy i ≠ wrapRow cy k := fun h => hik (wrapRow_inj (by omega) (by omega) h)
        rw [bOff _ _ fun h => hne h.1]
        exact ihOn _ _ ⟨i, j, by omega, hj, rfl, rfl, hbit⟩
    · intro r c hno
      rw [bOff _ _ fun ⟨h, j, hj, hw, hbit⟩ => hno ⟨k, j, by omega, hj, h.symm, hw, hbit⟩]
      exact ihOff _ _ fun ⟨i, j, hi, h⟩ => hno ⟨i, j, by omega, h⟩
    · rw [bHit, ihHit]
      constructor
      · rintro ((h | ⟨r, c, ⟨i, j, hi, h⟩, hp⟩) | ⟨j, hj, hbit, hp⟩)
        · exact .inl h
        · exact .inr ⟨r, c, ⟨i, j, by omega, h⟩, hp⟩
        · exact .inr ⟨wrapRow cy k, wrapCol cx j, ⟨k, j, by omega, hj, rfl, rfl, hbit⟩, hfresh _ ▸ hp⟩
      · rintro (h | ⟨r, c, ⟨i, j, hi, hj, rfl, rfl, hbit⟩, hp⟩)
        · exact .inl (.inl h)
        · by_cases hik : i = k
          · subst hik
            exact .inr ⟨j, hj, hbit, by rw [hfresh]; exact hp⟩
          · exact .inl (.inr ⟨_, _, ⟨i, j, by omega, hj, rfl, rfl, hbit⟩, hp⟩)

/-- The operation's terms and the claims' terms for a set bit of the sprite agree. -/
theorem State.landsOn_iff_spriteOn (s : State) (x y : Reg) (n : Nat) (r : Fin 32) (c : Fin 64) :
    s.LandsOn (s.getV x).toNat (s.getV y).toNat n r c ↔ s.SpriteOn x y n r c := by
  simp only [State.LandsOn, State.SpriteOn, wrapRow, wrapCol, State.effAddr, Fin.ext_iff]

/-- Everything `draw` does once its sprite is in bounds (R212). -/
theorem State.drawSprite_spec (s : State) (x y : Reg) {n : Nat} (hn : n ≤ 15) :
    (∀ r c, s.SpriteOn x y n r c → (s.drawSprite x y n).pixel r c = !s.pixel r c) ∧
    (∀ r c, ¬s.SpriteOn x y n r c → (s.drawSprite x y n).pixel r c = s.pixel r c) ∧
    ((∃ r c, s.SpriteOn x y n r c ∧ s.pixel r c = true) → (s.drawSprite x y n).getV flagReg = 1) ∧
    ((¬∃ r c, s.SpriteOn x y n r c ∧ s.pixel r c = true) → (s.drawSprite x y n).getV flagReg = 0) ∧
    SameRegsBut (fun q => q = flagReg) s (s.drawSprite x y n) ∧ SameBut [.regs, .screen] s (s.drawSprite x y n) ∧
    (s.drawSprite x y n).pc = s.pc + 2 ∧ (s.drawSprite x y n).mem = s.mem ∧ (s.drawSprite x y n).stack = s.stack := by
  obtain ⟨hOn, hOff, hHit⟩ := s.drawRows_spec (s.getV x).toNat (s.getV y).toNat ⟨s.fb, false⟩ (k := n) (by omega)
  simp only [s.landsOn_iff_spriteOn, Bool.false_eq_true, false_or] at hOn hOff hHit
  have hflag : (s.drawSprite x y n).getV flagReg =
      flagByte (s.drawRows (s.getV x).toNat (s.getV y).toNat ⟨s.fb, false⟩ n).hit := by
    simp [State.drawSprite]
  refine ⟨hOn, hOff, fun h => ?_, fun h => ?_, ?_, ?_, rfl, rfl, rfl⟩
  · rw [hflag, hHit.mpr h]; rfl
  · rw [hflag, Bool.eq_false_iff.mpr fun hc => h (hHit.mp hc)]; rfl
  · intro q hq
    simp only [State.drawSprite, State.getV_advance, State.getV_setFlag, hq, if_false]
    rfl
  · intro p hp
    cases p <;> first | simp at hp; done | rfl | exact fun _ => rfl | exact ⟨rfl, fun _ => rfl⟩ | exact ⟨rfl, rfl, rfl, rfl⟩

end Sys2Proof.Machine
end

