-- ==== Sys2Proof/Laws/Step.lean ====
section
/-! SUPPORT. The laws of fetch, of decoding a fetched word, and of the timers. -/

namespace Sys2Proof.Machine

/-- The word at `pc` is the big-endian word of the two bytes there (`20_memory.md` R62). -/
theorem State.wordAtPc_eq (s : State) : s.wordAtPc = wordOfBytes (s.readByte s.pc.toNat) (s.readByte (s.pc.toNat + 1)) := by
  unfold State.wordAtPc
  rw [← wordOfBytes_toNat, BitVec.ofNat_toNat, BitVec.setWidth_eq]

/-- Where both bytes exist, fetch reads the word at `pc` (`40_cycle.md` R121). -/
theorem State.fetch_ok {s : State} (h : s.pc.toNat ≤ 4094) : s.fetch = .ok s.wordAtPc := by
  unfold State.fetch
  rw [if_neg (by simp only [Config.memSize]; omega), s.wordAtPc_eq]

/-- Where the second byte does not exist, fetch raises (R121, D9). -/
theorem State.fetch_error {s : State} (h : 4095 ≤ s.pc.toNat) : s.fetch = .error ⟨.outOfBounds, s.pc⟩ := by
  unfold State.fetch
  rw [if_pos (by simp only [Config.memSize]; omega)]

/-- Fetch and decode answer an instruction exactly where both bytes exist and their word decodes to it. -/
theorem State.nextInstr_ok_iff (s : State) (i : Instr) :
    s.nextInstr = .ok i ↔ s.pc.toNat ≤ 4094 ∧ decodeWord s.wordAtPc = .ok i := by
  unfold State.nextInstr
  rcases Nat.lt_or_ge s.pc.toNat 4095 with h | h
  · have h : s.pc.toNat ≤ 4094 := by omega
    rw [State.fetch_ok h]
    cases hd : decodeWord s.wordAtPc <;> simp [h, hd]
  · rw [State.fetch_error h]
    simp; omega

/-- Two bytes decode, with nothing left over, exactly where their word does. -/
theorem decodeBytes_pair (a b : Byte) (i : Instr) :
    decodeBytes [a, b] = .ok (i, []) ↔ decodeWord (wordOfBytes a b) = .ok i := by
  simp only [decodeBytes]
  split <;> simp_all

/-- One count of a timer, as numbers: down by one, not below 0 (R124). -/
theorem countDown_toNat (b : Byte) : (countDown b).toNat = b.toNat - 1 := by
  unfold countDown
  split
  · simp_all
  · rename_i h
    have : b.toNat ≠ 0 := fun h0 => h (BitVec.eq_of_toNat_eq h0)
    rw [BitVec.toNat_sub]
    have := b.isLt
    simp; omega

end Sys2Proof.Machine
end

