-- ==== Sys2Proof/Tests/Slice0.lean ====
section
/-! SUPPORT. Small tests. Expected values are those of the vectors of `95_test_vectors.md`, named by their id, or are worked out
by hand from the rule named. The theorems of the second half (test_meets_…) show states and operands that meet the hypotheses
of the statements in `Certificates/Slice0/Obligations.lean`, clause by clause at the ends of the ranges. -/

namespace Sys2Proof.Tests

open Sys2Proof Sys2Proof.Machine

/-! ### Helpers -/

/-- The state after one step that fetches `w`. -/
def ran (w : Nat) (s : State) : State :=
  match step (s.withFetchWord 16 w) with
  | .next t => t
  | .fault _ => s
  | .refused _ => s

/-- The reset state with `V1`, `V2` and `VF` set. -/
def regs (a b f : Byte) : State := ((State.reset.setV 1 a).setV 2 b).setV flagReg f

/-- The reset state with the bytes `bs` at address `a`. -/
def withBytes (a : Nat) (bs : List Byte) (s : State) : State := { s with mem := s.mem.load a bs }

/-- The reset state with `SP` outstanding calls and `a` in every slot. -/
def calls (sp : Fin 17) (a : Word) : State := { State.reset with sp := sp, stack := Vector.replicate 16 a }

/-- The reset state with one pixel on. -/
def lit (r : Fin 32) (c : Fin 64) : State := { State.reset with fb := FrameBuffer.blank.flip r c }

/-- `V1`, `V2`, `VF` and `pc` as numbers. -/
def shown (s : State) : List Nat := [(s.getV 1).toNat, (s.getV 2).toNat, (s.getV flagReg).toNat, s.pc.toNat]

/-! ### Well-formedness (`70_reset_and_hazards.md` R291) -/

theorem test_empty_rom_is_refused : romWellFormed [] = false := by decide
theorem test_long_rom_is_refused : romWellFormed (List.replicate 3585 0x12) = false := by
  rw [romWellFormed, List.length_replicate]; decide
theorem test_full_rom_is_accepted : romWellFormed (List.replicate 3584 0x12) = true := by
  rw [romWellFormed, List.length_replicate]; decide
theorem test_odd_rom_is_accepted : romWellFormed [0x60] = true := by decide

/-! ### Decode, one word for each constructor (`30_encoding.md` R96) -/

theorem test_decode_flow :
    decodeWord 0x00E0 = .ok .clear ∧ decodeWord 0x00EE = .ok .ret ∧ decodeWord 0x1FED = .ok (.jump 0xFED) ∧
    decodeWord 0x2210 = .ok (.call 0x210) ∧ decodeWord 0x3A12 = .ok (.skipEqImm 10 0x12) ∧
    decodeWord 0x4B34 = .ok (.skipNeImm 11 0x34) ∧ decodeWord 0x5CD0 = .ok (.skipEqReg 12 13) ∧
    decodeWord 0x9EF0 = .ok (.skipNeReg 14 15) ∧ decodeWord 0xB300 = .ok (.jumpOffset 0x300) := by decide

theorem test_decode_alu :
    decodeWord 0x6A55 = .ok (.loadImm 10 0x55) ∧ decodeWord 0x7003 = .ok (.addImm 0 3) ∧
    decodeWord 0x8120 = .ok (.copy 1 2) ∧ decodeWord 0x8341 = .ok (.or 3 4) ∧ decodeWord 0x8562 = .ok (.and 5 6) ∧
    decodeWord 0x8783 = .ok (.xor 7 8) ∧ decodeWord 0x89A4 = .ok (.addReg 9 10) ∧ decodeWord 0x8BC5 = .ok (.sub 11 12) ∧
    decodeWord 0x8AB6 = .ok (.shr 10 11) ∧ decodeWord 0x8DE7 = .ok (.subn 13 14) ∧
    decodeWord 0x8ABE = .ok (.shl 10 11) := by decide

theorem test_decode_rest :
    decodeWord 0xAFFF = .ok (.loadIndex 0xFFF) ∧ decodeWord 0xC30F = .ok (.randAnd 3 0x0F) ∧
    decodeWord 0xD123 = .ok (.draw 1 2 3) ∧ decodeWord 0xE49E = .ok (.skipIfPressed 4) ∧
    decodeWord 0xE5A1 = .ok (.skipIfNotPressed 5) ∧ decodeWord 0xF107 = .ok (.readDelay 1) ∧
    decodeWord 0xF20A = .ok (.waitKey 2) ∧ decodeWord 0xF315 = .ok (.setDelay 3) ∧ decodeWord 0xF418 = .ok (.setSound 4) ∧
    decodeWord 0xF51E = .ok (.addIndex 5) ∧ decodeWord 0xF629 = .ok (.glyphAddr 6) ∧ decodeWord 0xF733 = .ok (.toBcd 7) ∧
    decodeWord 0xF855 = .ok (.storeRegs 8) ∧ decodeWord 0xF265 = .ok (.loadRegs 2) := by decide

/-- The near misses of `95_test_vectors.md` 2.6. -/
theorem test_decode_misses :
    [0x0000, 0x00E1, 0x01E0, 0x0123, 0x5121, 0x8128, 0x812F, 0x9121, 0xE000, 0xE19F, 0xF000, 0xF1FF].all
      (fun w => decodeWord w == .error (.unknownOpcode w)) = true := by decide

theorem test_decode_bytes : decodeBytes [0xD1, 0x23, 0x60] = .ok (.draw 1 2 3, [0x60]) ∧ decodeBytes [0xD1] = .error .truncated := by
  decide

theorem test_decode_table_word : decodeTableWord 16 0x8AB6 = some (.shr 10 11) ∧ decodeTableWord 16 0x5121 = none := by decide

/-! ### The step -/

/-- X4, and the tick that does not happen (2.6). -/
theorem test_unknown_opcode :
    ran 0x0000 { State.reset with dt := 5 } =
      { State.reset with dt := 5, fault := some ⟨.unknownOpcode, 0⟩ } := by decide
/-- CF25. -/
theorem test_fetch_past_the_end :
    step { State.reset with pc := 0x0FFF } = .next { State.reset with pc := 0x0FFF, fault := some ⟨.outOfBounds, 0x0FFF⟩ } := rfl
/-- CF24: the last legal fetch address. -/
theorem test_last_fetch : (ran 0x6000 { State.reset with pc := 0x0FFE }).pc = 0x1000 := by decide
/-- CF26: an odd `pc`. -/
theorem test_odd_pc : ((ran 0x6A55 { State.reset with pc := 0x0201 }).getV 10, (ran 0x6A55 { State.reset with pc := 0x0201 }).pc)
    = (0x55, 0x0203) := by decide
/-- X12. -/
theorem test_faulted_core_waits : step (State.reset.raise .stackFault 0) = .next (State.reset.raise .stackFault 0) := rfl
/-- The next step's inputs come from the list (log 2). -/
theorem test_listed_inputs :
    ((ran 0x6000 { State.reset with pending := [⟨2, 7⟩] }).keys, (ran 0x6000 { State.reset with pending := [⟨2, 7⟩] }).rnd) =
      (2, 7) := by decide
/-- The codes of R251. -/
theorem test_fault_port : (ran 0x0000 State.reset).faultPort = (2, 0) ∧ State.reset.faultPort = (0, 0) := by decide

/-! ### Reset (X1, X3, P1) -/

theorem test_empty_rom : (State.resetRom defaultGlyphs []).fault = some ⟨.loadError, 0⟩ := by decide
/-- P1's ROM; the glyph list is left empty, so the glyph region keeps the default. -/
theorem test_rom_placed :
    (State.resetRom [] [0x60, 0x05, 0x70, 0x03]).mem = [(0x200, 0x60), (0x201, 0x05), (0x202, 0x70), (0x203, 0x03)] := by
  decide
theorem test_glyph_bytes : (State.reset.readByte 0x50, State.reset.readByte 0x9F, State.reset.readByte 0xA0) = (0xF0, 0x80, 0) := by
  decide

/-! ### Control flow: CF1, CF2, CF4, CF7, CF9, CF11, CF12, CF13, CF15, CF16, CF17, CF18, CF20, CF22 -/

theorem test_return : ((ran 0x00EE (calls 1 0x0204)).sp, (ran 0x00EE (calls 1 0x0204)).pc) = (0, 0x0206) := by decide
theorem test_return_underflow : (ran 0x00EE State.reset).fault = some ⟨.stackFault, 0⟩ := by decide
theorem test_jump : (ran 0x1204 { State.reset with pc := 0x020A }).pc = 0x0204 := by decide
theorem test_call :
    (let t := ran 0x2210 { State.reset with pc := 0x0204 }; (t.slot 0, t.sp, t.pc)) = (0x0204, 1, 0x0210) := by decide
theorem test_call_overflow : (ran 0x2210 (calls 16 0)).fault = some ⟨.stackFault, 0x10⟩ := by decide
theorem test_jump_offset : (ran 0xBFFF (State.reset.setV 0 0xFF)).pc = 0x10FE := by decide
theorem test_skip_eq_imm :
    ((ran 0x3A12 (State.reset.setV 10 0x12)).pc, (ran 0x3A12 (State.reset.setV 10 0x13)).pc) = (0x0204, 0x0202) := by decide
theorem test_skip_ne_imm :
    ((ran 0x4A12 (State.reset.setV 10 0x12)).pc, (ran 0x4A12 (State.reset.setV 10 0x13)).pc) = (0x0202, 0x0204) := by decide
theorem test_skip_eq_reg : ((ran 0x5120 (regs 7 7 0)).pc, (ran 0x5120 (regs 7 8 0)).pc) = (0x0204, 0x0202) := by decide
theorem test_skip_ne_reg : ((ran 0x9120 (regs 7 8 0)).pc, (ran 0x9330 (regs 7 8 0)).pc) = (0x0204, 0x0202) := by decide

/-! ### Register and ALU: A1.1, A1.2, A2.2, A3.0 to A3.3, A4.1, A5.2, A6.1, A7.1, A8.1, A9.x, A10.x, A11.14 -/

theorem test_load_imm : ((ran 0x6A55 State.reset).getV 10, (ran 0x6F01 (regs 0 0 0xAA)).getV 15) = (0x55, 1) := by decide
theorem test_add_imm :
    (let t := ran 0x70FF ((regs 0 0 0xAA).setV 0 5); (t.getV 0, t.getV 15)) = (4, 0xAA) := by decide
theorem test_copy : shown (ran 0x8120 (regs 0x11 0x22 0xAA)) = [0x22, 0x22, 0xAA, 0x202] := by decide
theorem test_or : shown (ran 0x8121 (regs 0x5A 0x0F 0xAA)) = [0x5F, 0x0F, 0, 0x202] := by decide
theorem test_or_reads_flag : shown (ran 0x81F1 (regs 0x50 0 0x0A)) = [0x5A, 0, 0, 0x202] := by decide
theorem test_and : shown (ran 0x8122 (regs 0x5A 0x0F 0xAA)) = [0x0A, 0x0F, 0, 0x202] := by decide
theorem test_and_on_flag : shown (ran 0x8F22 (regs 0 0xFF 0x0F)) = [0, 0xFF, 0, 0x202] := by decide
theorem test_xor : shown (ran 0x8123 (regs 0x5A 0x0F 0xAA)) = [0x55, 0x0F, 0, 0x202] := by decide
theorem test_add_reg : shown (ran 0x8124 (regs 0xFF 0x02 0xAA)) = [1, 2, 1, 0x202] := by decide
theorem test_add_reg_on_flag : shown (ran 0x8F24 (regs 0 0x20 0x10)) = [0, 0x20, 0x30, 0x202] := by decide
theorem test_sub : shown (ran 0x8125 (regs 0x01 0x10 0xAA)) = [0xF1, 0x10, 0, 0x202] := by decide
theorem test_sub_of_flag : shown (ran 0x81F5 (regs 0x03 0 0x03)) = [2, 0, 1, 0x202] := by decide
theorem test_shr : shown (ran 0x8126 (regs 0x05 0x77 0xAA)) = [2, 0x77, 1, 0x202] := by decide
theorem test_shr_on_flag : shown (ran 0x8F26 (regs 0 0 0xFF)) = [0, 0, 0, 0x202] := by decide
theorem test_subn : shown (ran 0x8127 (regs 0x01 0x10 0xAA)) = [0x0F, 0x10, 1, 0x202] := by decide
theorem test_subn_on_flag : shown (ran 0x8F27 (regs 0 0x05 0x09)) = [0, 5, 5, 0x202] := by decide
theorem test_shl : shown (ran 0x812E (regs 0x81 0x77 0xAA)) = [2, 0x77, 1, 0x202] := by decide
theorem test_shl_on_flag : shown (ran 0x8FFE (regs 0 0 0xC0)) = [0, 0, 2, 0x202] := by decide

/-! ### Index and memory: M1.2, M2.2, M2.3, M3.4, M5.1, M5.9, M6.1, M6.3, M7.1, M7.3 -/

theorem test_load_index : (ran 0xAFFF State.reset).index = 0x0FFF := by decide
theorem test_add_index : (ran 0xF01E ({ State.reset with index := 0xFFFF }.setV 0 2)).index = 1 := by decide
theorem test_add_index_no_flag :
    (let t := ran 0xF01E (({ State.reset with index := 0x0FFF }.setV 0 1).setV 15 0xAA); (t.index, t.getV 15)) = (0x1000, 0xAA) := by
  decide
theorem test_glyph_addr : ((ran 0xF029 (State.reset.setV 0 0x0F)).index, (ran 0xF029 (State.reset.setV 0 0xFF)).index) = (0x9B, 0x54B) := by
  decide
theorem test_to_bcd :
    (let t := ran 0xF033 ({ State.reset with index := 0x300 }.setV 0 0x9C); (t.readByte 0x300, t.readByte 0x301, t.readByte 0x302))
      = (1, 5, 6) := by decide
theorem test_to_bcd_saturates :
    (ran 0xF033 { State.reset with index := 0xFFFF }).fault = some ⟨.outOfBounds, 0xFFFF⟩ := by decide
theorem test_store_regs :
    (let t := ran 0xF255 (((({ State.reset with index := 0x300 }.setV 0 0x11).setV 1 0x22).setV 2 0x33).setV 3 0x44)
     (t.readByte 0x300, t.readByte 0x301, t.readByte 0x302, t.readByte 0x303, t.index)) = (0x11, 0x22, 0x33, 0, 0x300) := by decide
theorem test_store_regs_past_the_end :
    (let t := ran 0xFF55 ({ State.reset with index := 0xFF1 }.setV 0 1); (t.fault, t.readByte 0xFF1)) =
      (some ⟨.outOfBounds, 0x1000⟩, 0) := by decide
theorem test_load_regs :
    (let t := ran 0xF265 (withBytes 0x300 [1, 5, 6, 7] ({ State.reset with index := 0x300 }.setV 3 0x99))
     (t.getV 0, t.getV 1, t.getV 2, t.getV 3, t.index)) = (1, 5, 6, 0x99, 0x300) := by decide
theorem test_load_regs_past_the_end :
    (ran 0xF165 { State.reset with index := 0xFFF }).fault = some ⟨.outOfBounds, 0x1000⟩ := by decide

/-! ### Display: DR1, DR4, DR6, DR8, DR10 -/

theorem test_clear :
    (let t := ran 0x00E0 ((lit 31 63).setV 15 7); (t.pixel 31 63, t.getV 15, t.pc)) = (false, 7, 0x202) := by decide
theorem test_draw_collides :
    (let t := ran 0xD001 (withBytes 0x210 [0xA0] ({ lit 4 4 with index := 0x210 }.setV 0 4))
     (t.pixel 4 4, t.pixel 4 5, t.pixel 4 6, t.getV 15)) = (false, false, true, 1) := by decide
theorem test_draw_x_from_flag :
    (let t := ran 0xDF11 (withBytes 0x210 [0x80] { regs 2 0 0x0A with index := 0x210 }); (t.pixel 2 10, t.getV 15)) =
      (true, 0) := by decide
theorem test_draw_no_rows :
    (let t := ran 0xD010 { regs 0 0 0x55 with index := 0xFFFF }; (t.fault, t.getV 15, t.pc)) = (none, 0, 0x202) := by decide
theorem test_draw_past_the_end :
    (let t := ran 0xD01F { regs 0 0 9 with index := 0xFF2 }; (t.fault, t.getV 15)) = (some ⟨.outOfBounds, 0x1000⟩, 9) := by
  decide

/-! ### Keypad, timers, random: K1.1, K1.3, K2.1, K2.3, K3.1, K3.3, K4.1, K5.1, K6.1, K7.1, K7.2 -/

theorem test_rand_and : (ran 0xC30F { State.reset with rnd := 0xB7 }).getV 3 = 7 := by decide
theorem test_rand_and_flag : (ran 0xCFFF { State.reset with rnd := 0x5A }).getV 15 = 0x5A := by decide
theorem test_skip_if_pressed : (ran 0xE49E ({ State.reset with keys := 0x0080 }.setV 4 7)).pc = 0x204 := by decide
theorem test_skip_if_pressed_no_key :
    (let t := ran 0xE49E ({ State.reset with keys := 0xFFFF, dt := 3 }.setV 4 0x10); (t.fault, t.pc, t.dt)) =
      (some ⟨.outOfBounds, 0x10⟩, 0x200, 3) := by decide
theorem test_skip_if_not_pressed : (ran 0xE4A1 ({ State.reset with keys := 0x0080 }.setV 4 7)).pc = 0x202 := by decide
theorem test_skip_if_not_pressed_no_key : (ran 0xE4A1 (State.reset.setV 4 0xFF)).fault = some ⟨.outOfBounds, 0xFF⟩ := by decide
theorem test_read_delay : (let t := ran 0xF107 { State.reset with dt := 2 }; (t.getV 1, t.dt)) = (2, 1) := by decide
theorem test_set_delay : (ran 0xF015 (State.reset.setV 0 3)).dt = 2 := by decide
theorem test_set_sound : (ran 0xF518 (State.reset.setV 5 0x10)).st = 0x0F := by decide
theorem test_wait_key_polls :
    (let t := ran 0xF20A { regs 0 9 0 with pc := 0x206, dt := 2, st := 1 }; (t.pc, t.getV 2, t.dt, t.st)) = (0x206, 9, 1, 0) := by
  decide
theorem test_wait_key_lowest :
    (let t := ran 0xF20A { State.reset with pc := 0x206, keys := 0x0880 }; (t.pc, t.getV 2)) = (0x208, 7) := by decide

/-! ### Hypotheses met: encoding and the step -/

theorem test_meets_wellFormed : (Instr.draw 1 2 0).wellFormed = true ∧ (Instr.shr 15 15).wellFormed = true := by decide
theorem test_meets_decodes : decodeWord 0xF265 = .ok (.loadRegs 2) := by decide
theorem test_meets_row : ⟨"clear", 0x00E0, 0xFFFF⟩ ∈ opcodeTable ∧ ⟨"load-regs", 0xF065, 0xF0FF⟩ ∈ opcodeTable := by decide

/-- For `UnmatchedWordIsUnknownOpcode`: the word of zeroed memory, at reset and at the last legal fetch address. -/
theorem test_meets_unmatched :
    (∀ row ∈ opcodeTable, row.selects 0x0000 = false) ∧
    (∀ s ∈ [State.reset, { State.reset with pc := 4094 }], s.fault = none ∧ s.pc.toNat ≤ 4094 ∧ s.wordAtPc = 0x0000) := by
  decide

/-- A running state whose word at `pc` is `w`. -/
def holding (w : Nat) (s : State) : State := s.withFetchWord 16 w

/-- For `StepRunsDecodedInstruction`, `TimersTickOncePerUnfaultedStep` and `UnfaultedStepLeavesListedPc`, at reset and at the
last legal fetch address. -/
theorem test_meets_step :
    ∀ s ∈ [holding 0x6A55 State.reset, holding 0x6A55 { State.reset with pc := 4094 }],
      s.fault = none ∧ s.pc.toNat ≤ 4094 ∧
      decodeBytes [s.readByte s.pc.toNat, s.readByte (s.pc.toNat + 1)] = .ok (.loadImm 10 0x55, []) := by decide

/-- The two clauses of `TimersTickOncePerUnfaultedStep`: a step that does not fault and one that does; the second is also for
`FaultingStepChangesOnlyFault`, and both for `StepFaultsExactlyAsListed`. -/
theorem test_meets_unfaulted_step :
    ∃ t, step (holding 0xF015 (State.reset.setV 0 3)) = .next t ∧ t.fault = none ∧
      (holding 0xF015 (State.reset.setV 0 3)).fault = none := ⟨_, rfl, rfl, rfl⟩
theorem test_meets_faulting_step :
    ∃ t, step (holding 0x00EE State.reset) = .next t ∧ t.fault ≠ none ∧ (holding 0x00EE State.reset).fault = none :=
  ⟨_, rfl, by decide, rfl⟩

/-- For `FetchReadsTwoBytesOrFaults`, both clauses where they meet. -/
theorem test_meets_fetch :
    ({ State.reset with pc := 4094 } : State).pc.toNat ≤ 4094 ∧ 4095 ≤ ({ State.reset with pc := 4095 } : State).pc.toNat ∧
    ({ State.reset with pc := 4095 } : State).fault = none := by decide

/-- For `FaultedCoreIgnoresSteps`. -/
theorem test_meets_faulted : (State.reset.raise .stackFault 0).fault = some ⟨.stackFault, 0⟩ := by decide

/-! ### Hypotheses met: the invariant and reset -/

/-- For `StepKeepsInvariant`: a state at the top of every range, and its step. -/
theorem test_meets_invariant :
    ({ calls 16 4094 with pc := 0x10FE } : State).Inv ∧ ∃ t, step { calls 16 4094 with pc := 0x10FE } = .next t :=
  ⟨by decide, _, rfl⟩
theorem test_meets_invariant_running :
    (holding 0x00EE (calls 16 4094)).Inv ∧ ∃ t, step (holding 0x00EE (calls 16 4094)) = .next t := ⟨by decide, _, rfl⟩

/-- For `ResetBuildsInitialState`: the shortest and the longest ROM. -/
theorem test_meets_good_rom :
    defaultGlyphs.length = 80 ∧
    (∀ n ∈ [1, 3584], 1 ≤ (List.replicate n (0x12 : Byte)).length ∧ (List.replicate n (0x12 : Byte)).length ≤ 3584) := by
  refine ⟨by decide, fun n hn => ?_⟩
  rw [List.length_replicate]
  simp only [List.mem_cons, List.not_mem_nil, or_false] at hn
  omega

/-- For `BadRomResetNeverSteps`: an empty ROM and the shortest that is too long. -/
theorem test_meets_bad_rom :
    defaultGlyphs.length = 80 ∧ ([] : List Byte).length = 0 ∧ 3584 < (List.replicate 3585 (0x12 : Byte)).length := by
  rw [List.length_replicate]; decide

/-! ### Hypotheses met: control transfer -/

/-- For `CallPushesItsOwnAddress`, `ReturnPopsAndAddsTwo` and `CallThenReturnComesBack`: every clause at its ends. -/
theorem test_meets_stack :
    (calls 0 0).sp.val < 16 ∧ (calls 15 0).sp.val < 16 ∧ (calls 16 0).sp.val = 16 ∧
    0 < (calls 1 0).sp.val ∧ (0 : Fin 16).val + 1 = (calls 1 0).sp.val ∧
    0 < (calls 16 0).sp.val ∧ (15 : Fin 16).val + 1 = (calls 16 0).sp.val ∧ (calls 0 0).sp.val = 0 := by decide

/-- For `SixteenNestedCallsThenOverflow`: no call, and sixteen. -/
theorem test_meets_nested_calls :
    (calls 0 0).sp.val = 0 ∧ ([] : List Addr12).length ≤ 16 ∧ (List.replicate 16 (0x210 : Addr12)).length = 16 := by decide

/-! ### Hypotheses met: registers -/

/-- For the flag clauses of the ALU statements and for `FlagRegisterAsDestination`. -/
theorem test_meets_other_register : (0 : Reg) ≠ flagReg ∧ (14 : Reg) ≠ flagReg ∧ 0 < 8 ∧ 7 < 8 := by decide

/-! ### Hypotheses met: memory -/

/-- The reset state with `I` set. -/
def at_ (i : Word) : State := { State.reset with index := i }

/-- For `ToBcdStoresThreeDigits`: both clauses where they meet, and at the top of `I`. -/
theorem test_meets_bcd :
    (at_ 4093).index.toNat + 2 < 4096 ∧ 4096 ≤ (at_ 4094).index.toNat + 2 ∧ 4096 ≤ (at_ 0xFFFF).index.toNat + 2 := by decide

/-- For `StoreRegsStoresBlock` and `LoadRegsLoadsBlock`: both clauses where they meet, with one register and with sixteen. -/
theorem test_meets_block :
    (at_ 4095).index.toNat + (0 : Reg).val < 4096 ∧ 4096 ≤ (at_ 4096).index.toNat + (0 : Reg).val ∧
    (at_ 4080).index.toNat + (15 : Reg).val < 4096 ∧ 4096 ≤ (at_ 4081).index.toNat + (15 : Reg).val ∧ (15 : Reg) ≤ 15 := by
  decide

/-- For `StoredWordIsFetchedNext`. -/
theorem test_meets_stored_word :
    (at_ 0x202).index.toNat + (1 : Reg).val < 4096 ∧ (0 : Reg) ≤ 1 ∧ (1 : Reg) ≤ 1 ∧
    (at_ 0x202).index.toNat + (0 : Reg).val = (at_ 0x202).pc.toNat + 2 ∧
    (at_ 0x202).index.toNat + (1 : Reg).val = (at_ 0x202).pc.toNat + 3 := by decide

/-! ### Hypotheses met: display -/

/-- For `DrawXorsSpriteAndSetsCollision`: no rows, and both sides of the bound with 15 rows. -/
theorem test_meets_draw_bounds :
    (0 : BitVec 4).toNat = 0 ∧ (at_ 0xFF1).index.toNat + (15 : BitVec 4).toNat - 1 < 4096 ∧
    1 ≤ (15 : BitVec 4).toNat ∧ 4096 ≤ (at_ 0xFF2).index.toNat + (15 : BitVec 4).toNat - 1 := by decide

/-- One row of one set bit at the origin, drawn on a screen with the pixel (0, 0) on. -/
def overlap : State := withBytes 0x210 [0x80] { lit 0 0 with index := 0x210 }

theorem test_meets_collision : ∃ r c, overlap.SpriteOn 0 1 (1 : BitVec 4).toNat r c ∧ overlap.pixel r c = true :=
  ⟨0, 0, ⟨0, 0, by decide, by decide, by decide, by decide, by decide⟩, by decide⟩

theorem test_meets_outside_sprite : ¬overlap.SpriteOn 0 1 (1 : BitVec 4).toNat 1 0 := by
  rintro ⟨row, col, hr, -, h, -⟩
  have hv : (overlap.getV 1).toNat = 0 := by decide
  simp only [hv, show (1 : BitVec 4).toNat = 1 from rfl, show (1 : Fin 32).val = 1 from rfl] at hr h
  omega

theorem test_meets_no_collision : ¬∃ r c, (at_ 0xFFFF).SpriteOn 0 1 (0 : BitVec 4).toNat r c ∧ (at_ 0xFFFF).pixel r c = true := by
  rintro ⟨r, c, ⟨row, col, h, -⟩, -⟩
  exact absurd h (Nat.not_lt_zero _)

/-- For `DrawTwiceRestoresScreen`, with a sprite that has a set bit on a dark screen. -/
theorem test_meets_draw_twice :
    (0 : Reg) ≠ flagReg ∧ (1 : Reg) ≠ flagReg ∧
    (withBytes 0x210 [0x80] (at_ 0x210)).index.toNat + (1 : BitVec 4).toNat - 1 < 4096 ∧
    (∀ r c, (withBytes 0x210 [0x80] (at_ 0x210)).SpriteOn 0 1 (1 : BitVec 4).toNat r c →
      (withBytes 0x210 [0x80] (at_ 0x210)).pixel r c = false) :=
  ⟨by decide, by decide, by decide, fun r c _ => by
    show FrameBuffer.blank.pixel r c = false
    simp [FrameBuffer.blank, FrameBuffer.pixel]⟩

/-! ### Hypotheses met: keypad, timers, random -/

/-- For `KeySkipsTestKeyFlag`: both clauses where they meet. -/
theorem test_meets_key_index :
    ((State.reset.setV 4 15).getV 4).toNat ≤ 15 ∧ 15 < ((State.reset.setV 4 16).getV 4).toNat := by decide

/-- For `WaitKeyTakesLowestOrStays`: no key, the lowest key and the highest. -/
theorem test_meets_wait_key :
    (∀ k < 16, State.reset.keys.getLsbD k = false) ∧
    (({ State.reset with keys := 0x8001 } : State).keys.getLsbD 0 = true ∧
      ∀ j < 0, ({ State.reset with keys := 0x8001 } : State).keys.getLsbD j = false) ∧
    (({ State.reset with keys := 0x8000 } : State).keys.getLsbD 15 = true ∧
      ∀ j < 15, ({ State.reset with keys := 0x8000 } : State).keys.getLsbD j = false) := by decide

/-- For `WaitKeyPollsUntilKey`: two steps with one listed input. -/
theorem test_meets_polling :
    (let s := holding 0xF20A { State.reset with pending := [⟨0, 7⟩] }
     s.fault = none ∧ s.pc.toNat ≤ 4094 ∧
     decodeBytes [s.readByte s.pc.toNat, s.readByte (s.pc.toNat + 1)] = .ok (.waitKey 2, []) ∧
     s.keys = 0 ∧ (∀ i ∈ s.pending, i.keys = 0) ∧ 2 ≤ s.pending.length + 1) := by decide

/-! ### Hypotheses met: whole-machine rules -/

/-- For `InstructionsChangeOnlyListedPieces`, `InstructionsWriteOnlyListedRegisters`, `RandomByteReachesOnlyRandAnd` and
`KeysReachOnlyKeyInstructions`. -/
theorem test_meets_exec :
    (∀ (x : Reg) (kk : Byte), Instr.copy 1 2 ≠ .randAnd x kk) ∧
    (∀ x : Reg, Instr.copy 1 2 ≠ .skipIfPressed x ∧ Instr.copy 1 2 ≠ .skipIfNotPressed x ∧ Instr.copy 1 2 ≠ .waitKey x) ∧
    exec (.copy 1 2) (regs 0 7 0) = .next (regs 7 7 0).advance :=
  ⟨by simp, by simp, by rfl⟩

/-- For `EndStateOnlyCountsDown`: a jump to itself at reset and at the last address it can stand at. -/
theorem test_meets_ended :
    (holding 0x1200 State.reset).Ended ∧ (holding 0x1FFE { State.reset with pc := 0x0FFE }).Ended := by decide

end Sys2Proof.Tests
end

namespace Sys2Proof.Machine

/-! ### The two branches of a push, a pop and a key operand (`10_state.md` R25, `45_keypad_timer_random.md` R232) -/

theorem State.push_pos (s : State) (h : s.sp.val < 16) (a : Word) (k : State → State) :
    s.push a k = k { s with stack := s.stack.set s.sp.val a, sp := ⟨s.sp.val + 1, by omega⟩ } := dif_pos h

theorem State.push_neg (s : State) (h : ¬s.sp.val < 16) (a : Word) (k : State → State) :
    s.push a k = s.raise .stackFault s.sp.val := dif_neg h

theorem State.pop_pos (s : State) (h : 0 < s.sp.val) (k : Word → State → State) :
    s.pop k = k (s.stack[s.sp.val - 1]'(by omega)) { s with sp := ⟨s.sp.val - 1, by omega⟩ } := dif_pos h

theorem State.pop_neg (s : State) (h : ¬0 < s.sp.val) (k : Word → State → State) :
    s.pop k = s.raise .stackFault s.sp.val := dif_neg h

theorem State.withKey_pos (s : State) {x : Reg} (h : (s.getV x).toNat < 16) (k : Bool → State) :
    s.withKey x k = k (s.keyDown (s.getV x).toNat) := if_pos h

theorem State.withKey_neg (s : State) {x : Reg} (h : ¬(s.getV x).toNat < 16) (k : Bool → State) :
    s.withKey x k = s.raise .outOfBounds (s.getV x).toNat := if_neg h

/-! ### Frames: each update of the state leaves every other piece as it is -/

theorem SameBut.refl (l : List Piece) (s : State) : SameBut l s s := by
  intro p _
  cases p <;> simp [Piece.Same]

section
variable {l : List Piece} {s t : State}

theorem SameBut.mono {l' : List Piece} (h : SameBut l s t) (hl : l ⊆ l') : SameBut l' s t :=
  fun p hp => h p fun hpl => hp (hl hpl)

theorem SameBut.setPc (h : SameBut l s t) (w : Word) : SameBut l s (t.setPc w) := by
  intro p hp
  cases p <;> exact h _ hp

theorem SameBut.advance (h : SameBut l s t) : SameBut l s t.advance := h.setPc _

theorem SameBut.setRegs (h : SameBut l s t) (hl : .regs ∈ l) (v : Vector Byte 16) : SameBut l s { t with v := v } := by
  intro p hp
  cases p with
  | regs => exact absurd hl hp
  | _ => exact h _ hp

theorem SameBut.setV (h : SameBut l s t) (hl : .regs ∈ l) (r : Reg) (b : Byte) : SameBut l s (t.setV r b) :=
  h.setRegs hl _

theorem SameBut.setIndex (h : SameBut l s t) (hl : .index ∈ l) (w : Word) : SameBut l s (t.setIndex w) := by
  intro p hp
  cases p with
  | index => exact absurd hl hp
  | _ => exact h _ hp

theorem SameBut.setDt (h : SameBut l s t) (hl : .dt ∈ l) (b : Byte) : SameBut l s (t.setDt b) := by
  intro p hp
  cases p with
  | dt => exact absurd hl hp
  | _ => exact h _ hp

theorem SameBut.setSt (h : SameBut l s t) (hl : .st ∈ l) (b : Byte) : SameBut l s (t.setSt b) := by
  intro p hp
  cases p with
  | st => exact absurd hl hp
  | _ => exact h _ hp

theorem SameBut.setFb (h : SameBut l s t) (hl : .screen ∈ l) (f : FrameBuffer) : SameBut l s { t with fb := f } := by
  intro p hp
  cases p with
  | screen => exact absurd hl hp
  | _ => exact h _ hp

theorem SameBut.setMem (h : SameBut l s t) (hl : .memory ∈ l) (m : Memory) : SameBut l s { t with mem := m } := by
  intro p hp
  cases p with
  | memory => exact absurd hl hp
  | _ => exact h _ hp

theorem SameBut.faultedWith (h : SameBut l s t) (hl : .fault ∈ l) (k : FaultKind) (w : Word) :
    SameBut l s (t.faultedWith k w) := by
  intro p hp
  cases p with
  | fault => exact absurd hl hp
  | _ => exact h _ hp

end

theorem SameRegsBut.setV {P : Reg → Prop} {s t : State} {r : Reg} (h : SameRegsBut P s t) (hr : P r) (b : Byte) :
    SameRegsBut P s (t.setV r b) := by
  intro q hq
  have hne : q ≠ r := fun he => hq (he ▸ hr)
  rw [State.getV_setV, if_neg hne, h q hq]

/-- A list that leaves the registers out leaves every register as it is. -/
theorem SameBut.sameRegsBut {l : List Piece} {s t : State} (h : SameBut l s t) (hl : .regs ∉ l) (P : Reg → Prop) :
    SameRegsBut P s t := fun r _ => h .regs hl r

/-! ### What an instruction does -/

/-- What an instruction that meets no fault of its own leaves: `pc` by the table of `40_cycle.md` R125, and everything outside
the tables of its writers as it was; the memory itself, not only its bytes, where the instruction is no writer of it. -/
structure Effect (i : Instr) (s t : State) : Prop where
  pc : t.pc = pcAfter i s
  fault : t.fault = s.fault
  mem : .memory ∉ mayChange i → t.mem = s.mem
  same : SameBut (mayChange i) s t
  regs : SameRegsBut (mayWrite i) s t

/-- An instruction raises the fault the table lists for it and does nothing else, or it has its effect. -/
def ExecSpec (i : Instr) (s : State) : Prop :=
  (∃ t, ownFault i s = none ∧ exec i s = .next t ∧ Effect i s t) ∨
    (∃ f, ownFault i s = some f ∧ exec i s = .next (s.faultedWith f.kind f.info))

/-- An effect outside the registers, from the list `l` of the pieces changed in fact. -/
theorem Effect.of_sameBut {i : Instr} {s t : State} {l : List Piece} (h : SameBut l s t) (hpc : t.pc = pcAfter i s)
    (hmem : .memory ∉ mayChange i → t.mem = s.mem) (hl : l ⊆ mayChange i := by simp [mayChange])
    (hf : .fault ∉ l := by decide) (hr : .regs ∉ l := by decide) : Effect i s t :=
  ⟨hpc, h .fault hf, hmem, h.mono hl, h.sameRegsBut hr _⟩

theorem Effect.of_setPc {i : Instr} {s : State} {w : Word} (hpc : w = pcAfter i s) : Effect i s (s.setPc w) :=
  .of_sameBut ((SameBut.refl [] s).setPc w) hpc fun _ => rfl

theorem Effect.of_setV {i : Instr} {s : State} {r : Reg} {b : Byte} (hpc : s.pc + 2 = pcAfter i s)
    (hl : .regs ∈ mayChange i) (hr : mayWrite i r) : Effect i s (s.setV r b).advance :=
  ⟨hpc, rfl, fun _ => rfl, ((SameBut.refl _ s).setV hl r b).advance,
    SameRegsBut.setV (fun _ _ => rfl) hr b⟩

theorem Effect.of_setV_setV {i : Instr} {s : State} {r r' : Reg} {b b' : Byte} (hpc : s.pc + 2 = pcAfter i s)
    (hl : .regs ∈ mayChange i) (hr : mayWrite i r) (hr' : mayWrite i r') :
    Effect i s ((s.setV r b).setV r' b').advance :=
  ⟨hpc, rfl, fun _ => rfl, (((SameBut.refl _ s).setV hl r b).setV hl r' b').advance,
    (SameRegsBut.setV (fun _ _ => rfl) hr b).setV hr' b'⟩

theorem ExecSpec.of_effect {i : Instr} {s t : State} (hf : ownFault i s = none) (he : exec i s = .next t)
    (h : Effect i s t) : ExecSpec i s := .inl ⟨t, hf, he, h⟩

theorem ExecSpec.of_fault {i : Instr} {s : State} {f : FaultRecord} (hf : ownFault i s = some f)
    (he : exec i s = .next (s.faultedWith f.kind f.info)) : ExecSpec i s := .inr ⟨f, hf, he⟩

/-! The instructions that can fault, or whose `pc` needs an argument. -/

theorem State.loadBlock_pc (s : State) (k : Nat) : (s.loadBlock k).pc = s.pc := by rw [State.loadBlock_eq]

theorem execSpec_ret (s : State) : ExecSpec .ret s := by
  rcases s.pop_cases fun a t => t.setPc (a + 2) with ⟨t, j, hpos, hj, hpop, -, -, hsame, -, ht⟩ | ⟨hsp, hpop⟩
  · refine .of_effect (if_neg (by omega)) (congrArg Host.Outcome.next hpop)
      (.of_sameBut (hsame.setPc _) ?_ fun _ => by rw [State.setPc_mem, ht])
    have hslot : (⟨(s.sp.val - 1) % 16, Nat.mod_lt _ (by decide)⟩ : Fin 16) = j := Fin.ext (by simp only; omega)
    simp only [State.setPc_pc, pcAfter, hslot]
  · exact .of_fault (if_pos hsp) (congrArg Host.Outcome.next hpop)

theorem execSpec_call (nnn : Addr12) (s : State) : ExecSpec (.call nnn) s := by
  rcases s.push_cases s.pc fun t => t.setPc (zextAddr nnn) with ⟨t, hlt, hpush, -, -, hsame, -, ht⟩ | ⟨hsp, hpush⟩
  · exact .of_effect (if_neg (by omega)) (congrArg Host.Outcome.next hpush)
      (.of_sameBut (hsame.setPc _) rfl fun _ => by rw [State.setPc_mem, ht])
  · exact .of_fault (if_pos hsp) (congrArg Host.Outcome.next hpush)

theorem execSpec_jumpOffset (nnn : Addr12) (s : State) : ExecSpec (.jumpOffset nnn) s := by
  refine .of_effect rfl rfl (.of_setPc ?_)
  simp only [pcAfter, zextByte, zextAddr]
  apply BitVec.eq_of_toNat_eq
  simp

/-- An instruction behind the bounds check of `20_memory.md` R68. -/
theorem ExecSpec.of_inBounds {i : Instr} {s : State} {top : Nat} {k : State → State}
    (he : exec i s = .next (s.inBounds top k))
    (hf : ownFault i s = if 4096 ≤ top then some ⟨.outOfBounds, saturate16 top⟩ else none) (h : Effect i s (k s)) :
    ExecSpec i s := by
  rcases s.inBounds_cases top k with ⟨hlt, hk⟩ | ⟨hge, hk⟩
  · exact .of_effect (hf.trans (if_neg (by omega))) (he.trans (congrArg _ hk)) h
  · exact .of_fault (hf.trans (if_pos hge)) (he.trans (congrArg _ hk))

theorem execSpec_toBcd (x : Reg) (s : State) : ExecSpec (.toBcd x) s :=
  .of_inBounds rfl rfl (.of_sameBut ((SameBut.refl [.memory] s).setMem (by simp) _).advance rfl (by simp [mayChange]))

theorem execSpec_storeRegs (x : Reg) (s : State) : ExecSpec (.storeRegs x) s := by
  refine .of_inBounds rfl rfl ?_
  rw [State.storeBlock_eq]
  exact .of_sameBut ((SameBut.refl [.memory] s).setMem (by simp) _).advance rfl (by simp [mayChange])

theorem execSpec_loadRegs (x : Reg) (s : State) : ExecSpec (.loadRegs x) s := by
  refine .of_inBounds rfl rfl ⟨?_, ?_, fun _ => ?_, ?_, fun r hr => ?_⟩
  · rw [State.advance_pc, State.loadBlock_pc]; rfl
  · rw [State.loadBlock_eq]; rfl
  · rw [State.loadBlock_eq]; rfl
  · rw [State.loadBlock_eq]
    exact ((SameBut.refl _ s).setRegs (by simp [mayChange]) _).advance
  · have hlt : ¬ r.val < x.val + 1 := fun h => hr (show r.val ≤ x.val by omega)
    rw [State.getV_advance, State.getV_loadBlock s (by omega), if_neg hlt]

theorem effect_drawSprite (x y : Reg) (n : BitVec 4) (s : State) : Effect (.draw x y n) s (s.drawSprite x y n.toNat) := by
  obtain ⟨-, -, -, -, hregs, hsame, hpc, hmem, -⟩ := s.drawSprite_spec x y (n := n.toNat) (by omega)
  exact ⟨hpc, hsame .fault (by decide), fun _ => hmem, hsame.mono (by simp [mayChange]), hregs⟩

theorem execSpec_draw (x y : Reg) (n : BitVec 4) (s : State) : ExecSpec (.draw x y n) s := by
  by_cases hn : n = 0
  · subst hn
    exact .of_effect rfl rfl (effect_drawSprite x y 0 s)
  · have hpos : 1 ≤ n.toNat := by bv_omega
    refine .of_inBounds (congrArg Host.Outcome.next (if_neg hn)) ?_ (effect_drawSprite x y n s)
    have htop : s.index.toNat + n.toNat - 1 = s.effAddr (n.toNat - 1) := Nat.add_sub_assoc hpos _
    simp only [ownFault, htop]
    exact if_congr (and_iff_right hpos) rfl rfl

/-- A key skip: `OutOfBoundsAccess` for an index above 15, else a move of `pc` (`45_keypad_timer_random.md` R232). -/
theorem ExecSpec.of_withKey {i : Instr} {s : State} {x : Reg} {c : Bool → Bool}
    (he : exec i s = .next (s.withKey x fun down => s.skipIf (c down)))
    (hf : ownFault i s = if 15 < (s.getV x).toNat then some ⟨.outOfBounds, (s.getV x).setWidth 16⟩ else none)
    (hpc : (if c (s.keyDown (s.getV x).toNat) then s.pc + 4 else s.pc + 2) = pcAfter i s) : ExecSpec i s := by
  rcases s.withKey_cases x fun down => s.skipIf (c down) with ⟨hle, hk⟩ | ⟨hgt, hk⟩
  · exact .of_effect (hf.trans (if_neg (by omega))) (he.trans (congrArg _ hk)) (.of_setPc hpc)
  · exact .of_fault (hf.trans (if_pos hgt)) (he.trans (congrArg _ hk))

theorem execSpec_skipIfPressed (x : Reg) (s : State) : ExecSpec (.skipIfPressed x) s :=
  .of_withKey (c := id) rfl rfl rfl

theorem execSpec_skipIfNotPressed (x : Reg) (s : State) : ExecSpec (.skipIfNotPressed x) s := by
  refine .of_withKey (c := not) rfl rfl ?_
  cases h : s.keyDown (s.getV x).toNat <;> simp [pcAfter, h]

/-- `wait-key` finds no key exactly when no flag is set. -/
theorem State.pressedKey_cases (s : State) :
    (s.keys = 0 ∧ s.pressedKey = none) ∨ (s.keys ≠ 0 ∧ ∃ k, s.pressedKey = some k) := by
  rcases s.pressedKey_spec with ⟨hnone, hup⟩ | ⟨k, hsome, -, hdown, -⟩
  · exact .inl ⟨BitVec.eq_of_getLsbD_eq fun j hj => by simpa [State.keyDown] using hup j hj, hnone⟩
  · refine .inr ⟨fun h0 => ?_, k, hsome⟩
    simp [State.keyDown, h0] at hdown

theorem execSpec_waitKey (x : Reg) (s : State) : ExecSpec (.waitKey x) s := by
  rcases s.pressedKey_cases with ⟨hkeys, hnone⟩ | ⟨hkeys, k, hsome⟩
  · refine .of_effect rfl (t := s) ?_ (.of_setPc (if_pos hkeys).symm)
    simp only [exec, execWaitKey, hnone]
  · refine .of_effect rfl (t := (s.setV x (BitVec.ofNat 8 k)).advance) ?_
      (.of_setV (if_neg hkeys).symm (by simp [mayChange]) rfl)
    simp only [exec, execWaitKey, hsome]

/-- What every instruction does (`40_cycle.md` R123, R125; `60_exceptions.md` R254, R255). -/
theorem execSpec (i : Instr) (s : State) : ExecSpec i s := by
  cases i with
  | ret => exact execSpec_ret s
  | call nnn => exact execSpec_call nnn s
  | jumpOffset nnn => exact execSpec_jumpOffset nnn s
  | draw x y n => exact execSpec_draw x y n s
  | skipIfPressed x => exact execSpec_skipIfPressed x s
  | skipIfNotPressed x => exact execSpec_skipIfNotPressed x s
  | waitKey x => exact execSpec_waitKey x s
  | toBcd x => exact execSpec_toBcd x s
  | storeRegs x => exact execSpec_storeRegs x s
  | loadRegs x => exact execSpec_loadRegs x s
  | jump nnn => exact .of_effect rfl rfl (.of_setPc rfl)
  | skipEqImm | skipNeImm | skipEqReg | skipNeReg =>
    exact .of_effect rfl rfl (.of_setPc (by simp [pcAfter]))
  | clear => exact .of_effect rfl rfl (.of_sameBut ((SameBut.refl [.screen] s).setFb (by simp) _).advance rfl fun _ => rfl)
  | loadIndex | addIndex | glyphAddr =>
    exact .of_effect rfl rfl (.of_sameBut ((SameBut.refl [.index] s).setIndex (by simp) _).advance rfl fun _ => rfl)
  | setDelay => exact .of_effect rfl rfl (.of_sameBut ((SameBut.refl [.dt] s).setDt (by simp) _).advance rfl fun _ => rfl)
  | setSound => exact .of_effect rfl rfl (.of_sameBut ((SameBut.refl [.st] s).setSt (by simp) _).advance rfl fun _ => rfl)
  | loadImm | addImm | copy | randAnd | readDelay => exact .of_effect rfl rfl (.of_setV rfl (by simp [mayChange]) rfl)
  | or | and | xor => exact .of_effect rfl rfl (.of_setV_setV rfl (by simp [mayChange]) (.inl rfl) (.inr rfl))
  | addReg | sub | shr | subn | shl =>
    exact .of_effect rfl rfl (.of_setV_setV rfl (by simp [mayChange]) (.inr rfl) (.inl rfl))

/-- No instruction stops the model: every one answers a next state (`40_cycle.md` R120, R123). -/
theorem exec_next (i : Instr) (s : State) : ∃ t, exec i s = .next t := by
  rcases execSpec i s with ⟨t, -, ht, -⟩ | ⟨f, -, ht⟩
  · exact ⟨t, ht⟩
  · exact ⟨_, ht⟩

/-- The ways an instruction answers a next state. -/
theorem exec_cases {i : Instr} {s t : State} (h : exec i s = .next t) :
    (ownFault i s = none ∧ Effect i s t) ∨ (∃ f, ownFault i s = some f ∧ t = s.faultedWith f.kind f.info) := by
  rcases execSpec i s with ⟨u, hf, hu, heff⟩ | ⟨f, hf, hu⟩
  · obtain rfl := Host.Outcome.next.inj (hu.symm.trans h)
    exact .inl ⟨hf, heff⟩
  · exact .inr ⟨f, hf, (Host.Outcome.next.inj (hu.symm.trans h)).symm⟩

/-- The table of writers lists `FAULT` for every instruction that has a fault of its own. -/
theorem fault_mem_mayChange {i : Instr} {s : State} {f : FaultRecord} (h : ownFault i s = some f) : .fault ∈ mayChange i := by
  cases i with
  | ret | call | draw | skipIfPressed | skipIfNotPressed | toBcd | storeRegs | loadRegs => simp [mayChange]
  | _ => cases h

theorem exec_sameBut {i : Instr} {s t : State} (h : exec i s = .next t) : SameBut (mayChange i) s t := by
  rcases exec_cases h with ⟨-, heff⟩ | ⟨f, hf, rfl⟩
  · exact heff.same
  · exact (SameBut.refl _ s).faultedWith (fault_mem_mayChange hf) _ _

theorem exec_sameRegsBut {i : Instr} {s t : State} (h : exec i s = .next t) : SameRegsBut (mayWrite i) s t := by
  rcases exec_cases h with ⟨-, heff⟩ | ⟨f, -, rfl⟩
  · exact heff.regs
  · exact fun _ _ => rfl

/-- No instruction changes the inputs. -/
theorem exec_inputs {i : Instr} {s t : State} (h : exec i s = .next t) : Piece.inputs.Same s t :=
  exec_sameBut h .inputs (by cases i <;> simp [mayChange])

/-! ### What a step does -/

/-- The ways a step answers a next state (`40_cycle.md` R127). -/
theorem step_cases {s t : State} (h : step s = .next t) :
    (∃ f, s.fault = some f ∧ t = s) ∨
      (∃ f, s.fault = none ∧ s.nextInstr = .error f ∧ t = s.faultedWith f.kind f.info) ∨
      (∃ i u, s.fault = none ∧ s.nextInstr = .ok i ∧ exec i s = .next u ∧ t = u.endStep) := by
  unfold step at h
  split at h
  next f hf => exact .inl ⟨f, hf, (Host.Outcome.next.inj h).symm⟩
  next hf =>
    split at h
    next f hi =>
      rw [State.raise_eq, saturate16_toNat] at h
      exact .inr (.inl ⟨f, hf, hi, (Host.Outcome.next.inj h).symm⟩)
    next i hi =>
      obtain ⟨u, hu⟩ := exec_next i s
      rw [hu] at h
      exact .inr (.inr ⟨i, u, hf, hi, hu, (Host.Outcome.next.inj h).symm⟩)

/-! ### The invariant -/

/-- Every instruction keeps the canonical form of memory. -/
theorem exec_mem_wf {i : Instr} {s t : State} (h : exec i s = .next t) (hwf : s.mem.wf = true) : t.mem.wf = true := by
  rcases exec_cases h with ⟨-, heff⟩ | ⟨f, -, rfl⟩
  case inr => exact hwf
  cases i with
  | toBcd x =>
    obtain rfl := Host.Outcome.next.inj h
    rcases s.inBounds_cases (s.effAddr 2) _ with ⟨-, hk⟩ | ⟨-, hk⟩
    · rw [hk]; exact Memory.wf_load _ _ hwf
    · rw [hk]; exact hwf
  | storeRegs x =>
    obtain rfl := Host.Outcome.next.inj h
    rcases s.inBounds_cases (s.effAddr x.val) _ with ⟨-, hk⟩ | ⟨-, hk⟩
    · rw [hk]; exact s.wf_storeBlock _ hwf
    · rw [hk]; exact hwf
  | _ => rw [heff.mem (by simp [mayChange])]; exact hwf

/-- Every instruction leaves in a stack slot what was there, but for a call, which may leave `pc`. -/
theorem exec_slot {i : Instr} {s t : State} (h : exec i s = .next t) (k : Fin 16) :
    t.slot k = s.slot k ∨ t.slot k = s.pc := by
  cases i with
  | ret =>
    obtain rfl := Host.Outcome.next.inj h
    rcases s.pop_cases fun a t => t.setPc (a + 2) with ⟨u, j, -, -, hpop, -, hslot, -⟩ | ⟨-, hpop⟩
    · rw [hpop]; exact .inl (hslot k)
    · rw [hpop]; exact .inl rfl
  | call nnn =>
    obtain rfl := Host.Outcome.next.inj h
    rcases s.push_cases s.pc fun t => t.setPc (zextAddr nnn) with ⟨u, -, hpush, -, hslot, -⟩ | ⟨-, hpush⟩
    · rw [hpush]
      show u.slot k = s.slot k ∨ u.slot k = s.pc
      rw [hslot k]
      split
      · exact .inr rfl
      · exact .inl rfl
    · rw [hpush]; exact .inl rfl
  | _ => exact .inl ((exec_sameBut h .stack (by simp [mayChange])).2 k)

/-- The largest `pc` the table of R125 can give is that of `jump-offset`, 0x0FF + 0xFFF (`10_state.md` R23). -/
theorem pcAfter_le (i : Instr) {s : State} (hpc : s.pc.toNat ≤ 4094) (hslot : ∀ k : Fin 16, (s.slot k).toNat ≤ 4094) :
    (pcAfter i s).toNat ≤ 0x10FE := by
  have hnext : ∀ w : Word, w.toNat ≤ 4094 → (w + 2).toNat ≤ 0x10FE := fun w hw => by bv_omega
  have hskip : (s.pc + 4).toNat ≤ 0x10FE := by bv_omega
  cases i with
  | skipEqImm | skipNeImm | skipEqReg | skipNeReg | skipIfPressed =>
    simp only [pcAfter]; split
    · exact hskip
    · exact hnext _ hpc
  | skipIfNotPressed =>
    simp only [pcAfter]; split
    · exact hnext _ hpc
    · exact hskip
  | waitKey =>
    simp only [pcAfter]; split
    · omega
    · exact hnext _ hpc
  | jump nnn | call nnn => simp only [pcAfter, BitVec.toNat_setWidth]; omega
  | jumpOffset nnn => simp only [pcAfter, BitVec.toNat_ofNat]; omega
  | ret => exact hnext _ (hslot _)
  | _ => exact hnext _ hpc

/-- The invariant speaks of memory, `pc` and the stack only. -/
theorem State.Inv.congr {s t : State} (h : s.Inv) (hmem : t.mem = s.mem) (hpc : t.pc = s.pc) (hstack : t.stack = s.stack) :
    t.Inv := by
  simpa only [State.Inv, State.slot, hmem, hpc, hstack] using h

theorem exec_inv {i : Instr} {s t : State} (h : s.Inv) (hfetch : s.pc.toNat ≤ 4094) (he : exec i s = .next t) : t.Inv := by
  obtain ⟨hwf, hpc, hslot⟩ := h
  refine ⟨exec_mem_wf he hwf, ?_, fun k => ?_⟩
  · rcases exec_cases he with ⟨-, heff⟩ | ⟨f, -, rfl⟩
    · rw [heff.pc]; exact pcAfter_le i hfetch hslot
    · exact hpc
  · rcases exec_slot he k with hk | hk
    · rw [hk]; exact hslot k
    · rw [hk]; exact hfetch

theorem State.endStep_inv {s : State} (h : s.Inv) : s.endStep.Inv := by
  obtain ⟨-, hpc, hmem, hstack⟩ := s.endStep_same
  exact h.congr hmem hpc hstack

/-! ### Reset with a ROM -/

/-- Memory after the glyph load of a reset (`70_reset_and_hazards.md` R292). -/
def glyphMemory (glyphs : List Byte) : Memory := Memory.load [] Config.glyphBase (glyphs.take Config.glyphSize)

theorem State.resetRom_of_valid {rom : List Byte} (h : romWellFormed rom = true) (glyphs : List Byte) :
    State.resetRom glyphs rom = { State.reset with mem := (glyphMemory glyphs).load Config.romBase rom } := if_pos h

theorem State.resetRom_of_invalid {rom : List Byte} (h : romWellFormed rom = false) (glyphs : List Byte) :
    State.resetRom glyphs rom = { State.reset with mem := glyphMemory glyphs }.raise .loadError rom.length :=
  if_neg (by simp [h])

theorem romWellFormed_iff (rom : List Byte) : romWellFormed rom = true ↔ 1 ≤ rom.length ∧ rom.length ≤ 3584 := by
  simp [romWellFormed, Config.romRoom]

theorem glyphMemory_wf (glyphs : List Byte) : (glyphMemory glyphs).wf = true := Memory.wf_load _ _ rfl

@[simp] theorem State.slot_reset (k : Fin 16) : State.reset.slot k = 0 := by simp [State.slot, State.reset]

@[simp] theorem State.getV_reset (r : Reg) : State.reset.getV r = 0 := by simp [State.getV, State.reset]

/-- The registers and the stack of a reset meet the invariant with any canonical memory. -/
theorem State.reset_setMem_inv {m : Memory} (h : m.wf = true) : ({ State.reset with mem := m } : State).Inv :=
  ⟨h, (by decide : State.reset.pc.toNat ≤ 0x10FE), fun k => by
    show (State.reset.slot k).toNat ≤ 4094
    rw [State.slot_reset]
    decide⟩

theorem Memory.unlisted_of_not_glyph {a : Nat} (h : ¬(0x050 ≤ a ∧ a < 0x0A0)) : Memory.unlisted a = 0 := if_neg h

theorem read_glyphMemory_glyph {glyphs : List Byte} (hlen : glyphs.length = 80) {j : Nat} (hj : j < glyphs.length) :
    (glyphMemory glyphs).read (0x050 + j) = glyphs[j] := by
  rw [glyphMemory, List.take_of_length_le (by simp [hlen]), Memory.read_load,
    dif_pos (by simp only [Config.glyphBase, Config.memSize]; omega)]
  simp [Config.glyphBase]

theorem read_glyphMemory_other {glyphs : List Byte} (hlen : glyphs.length = 80) {a : Nat} (ha : ¬(0x050 ≤ a ∧ a < 0x0A0)) :
    (glyphMemory glyphs).read a = 0 := by
  rw [glyphMemory, List.take_of_length_le (by simp [hlen]), Memory.read_load,
    dif_neg (by simp only [Config.glyphBase]; omega)]
  exact Memory.unlisted_of_not_glyph ha

/-! ### Other inputs for the coming step (`40_cycle.md` R126) -/

/-- `s` with other inputs for the coming step. -/
def State.withInputs (s : State) (ks : BitVec 16) (b : Byte) : State := { s with keys := ks, rnd := b }

section
variable {s : State} {ks : BitVec 16} {b : Byte}

theorem State.inBounds_withInputs {top : Nat} {k : State → State}
    (hk : k (s.withInputs ks b) = (k s).withInputs ks b) :
    (s.withInputs ks b).inBounds top k = (s.inBounds top k).withInputs ks b := by
  unfold State.inBounds
  split
  · rfl
  · exact hk

theorem State.storeBlock_withInputs (k : Nat) : (s.withInputs ks b).storeBlock k = (s.storeBlock k).withInputs ks b := by
  induction k with
  | zero => rfl
  | succ k ih =>
    simp only [State.storeBlock]
    split
    · rw [ih]; rfl
    · exact ih

theorem State.loadBlock_withInputs (k : Nat) : (s.withInputs ks b).loadBlock k = (s.loadBlock k).withInputs ks b := by
  induction k with
  | zero => rfl
  | succ k ih =>
    simp only [State.loadBlock]
    split
    · rw [ih]; rfl
    · exact ih

theorem State.drawRows_withInputs (cx cy : Nat) (d : DrawAcc) (k : Nat) :
    (s.withInputs ks b).drawRows cx cy d k = s.drawRows cx cy d k := by
  induction k with
  | zero => rfl
  | succ k ih => simp only [State.drawRows, ih]; rfl

theorem State.drawSprite_withInputs (x y : Reg) (n : Nat) :
    (s.withInputs ks b).drawSprite x y n = (s.drawSprite x y n).withInputs ks b := by
  simp only [State.drawSprite, State.drawRows_withInputs]; rfl

theorem State.push_setPc_withInputs (a w : Word) :
    (s.withInputs ks b).push a (fun t => t.setPc w) = (s.push a fun t => t.setPc w).withInputs ks b := by
  by_cases h : s.sp.val < 16
  · rw [State.push_pos s h, State.push_pos (s.withInputs ks b) h]; rfl
  · rw [State.push_neg s h, State.push_neg (s.withInputs ks b) h]; rfl

theorem State.pop_setPc_withInputs (d : Word) :
    (s.withInputs ks b).pop (fun a t => t.setPc (a + d)) = (s.pop fun a t => t.setPc (a + d)).withInputs ks b := by
  by_cases h : 0 < s.sp.val
  · rw [State.pop_pos s h, State.pop_pos (s.withInputs ks b) h]; rfl
  · rw [State.pop_neg s h, State.pop_neg (s.withInputs ks b) h]; rfl

/-- The random byte does not reach a key skip's operand. -/
theorem State.withKey_withRnd {x : Reg} {k k' : Bool → State} (hk : ∀ c, k' c = (k c).withInputs s.keys b) :
    (s.withInputs s.keys b).withKey x k' = (s.withKey x k).withInputs s.keys b := by
  by_cases h : (s.getV x).toNat < 16
  · rw [State.withKey_pos s h, State.withKey_pos (s.withInputs s.keys b) h]; exact hk _
  · rw [State.withKey_neg s h, State.withKey_neg (s.withInputs s.keys b) h]; rfl

theorem State.lowestKeyFrom_withRnd (k fuel : Nat) :
    (s.withInputs s.keys b).lowestKeyFrom k fuel = s.lowestKeyFrom k fuel := by
  induction fuel generalizing k with
  | zero => rfl
  | succ fuel ih => simp only [State.lowestKeyFrom, ih]; rfl

end

/-- The instructions that read the key flags (`10_state.md` R27). -/
def ReadsKeys (i : Instr) : Prop := ∃ x, i = .skipIfPressed x ∨ i = .skipIfNotPressed x ∨ i = .waitKey x

/-- The inputs reach an instruction only where it reads them: with others it does the same (R27, R231). -/
theorem exec_withInputs {i : Instr} {s t : State} {ks : BitVec 16} {b : Byte} (hkeys : ReadsKeys i → ks = s.keys)
    (hrnd : (∃ x kk, i = .randAnd x kk) → b = s.rnd) (h : exec i s = .next t) :
    exec i (s.withInputs ks b) = .next (t.withInputs ks b) := by
  cases i <;> obtain rfl := Host.Outcome.next.inj h <;> refine congrArg Host.Outcome.next ?_
  case ret => exact State.pop_setPc_withInputs 2
  case call nnn => exact State.push_setPc_withInputs s.pc (zextAddr nnn)
  case draw x y n =>
    by_cases hn : n = 0
    · simp only [if_pos hn]
      exact State.drawSprite_withInputs x y 0
    · simp only [if_neg hn]
      exact State.inBounds_withInputs (State.drawSprite_withInputs x y _)
  case toBcd x => exact State.inBounds_withInputs rfl
  case storeRegs x => exact State.inBounds_withInputs (congrArg State.advance (State.storeBlock_withInputs _))
  case loadRegs x => exact State.inBounds_withInputs (congrArg State.advance (State.loadBlock_withInputs _))
  case randAnd x kk =>
    obtain rfl := hrnd ⟨x, kk, rfl⟩
    rfl
  case skipIfPressed x =>
    obtain rfl := hkeys ⟨x, .inl rfl⟩
    exact State.withKey_withRnd fun _ => rfl
  case skipIfNotPressed x =>
    obtain rfl := hkeys ⟨x, .inr (.inl rfl)⟩
    exact State.withKey_withRnd fun _ => rfl
  case waitKey x =>
    obtain rfl := hkeys ⟨x, .inr (.inr rfl)⟩
    simp only [State.pressedKey, State.lowestKeyFrom_withRnd]
    split <;> rfl
  all_goals rfl

end Sys2Proof.Machine

namespace Sys2Proof.Proofs

open Sys2Proof.Machine

/-- Settles O14: fetch bounds the `pc` an instruction runs at, and the table of R125 and the stack are bounded from there. -/
theorem stepKeepsInvariant : Obligations.StepKeepsInvariant := by
  intro s t hinv hstep
  rcases step_cases hstep with ⟨f, -, rfl⟩ | ⟨f, -, -, rfl⟩ | ⟨i, u, -, hi, hu, rfl⟩
  · exact hinv
  · exact hinv
  · obtain ⟨hfetch, -⟩ := (s.nextInstr_ok_iff i).mp hi
    exact State.endStep_inv (exec_inv hinv hfetch hu)

/-- Settles O45: an effect keeps to the table of writers, and a fault writes `FAULT`, which the table lists. -/
theorem instructionsChangeOnlyListedPieces : Obligations.InstructionsChangeOnlyListedPieces :=
  fun _ _ _ h => exec_sameBut h

/-- Settles O46: an effect keeps to the destinations and the flag, and a fault writes no register. -/
theorem instructionsWriteOnlyListedRegisters : Obligations.InstructionsWriteOnlyListedRegisters :=
  fun _ _ _ h => exec_sameRegsBut h

/-- Settles O16: whichever bytes a reset loads, loading keeps the canonical form. -/
theorem resetWithRomMeetsInvariant : Obligations.ResetWithRomMeetsInvariant := by
  intro glyphs rom
  cases h : romWellFormed rom with
  | true =>
    rw [State.resetRom_of_valid h]
    exact State.reset_setMem_inv (Memory.wf_load _ _ (glyphMemory_wf glyphs))
  | false =>
    rw [State.resetRom_of_invalid h]
    exact State.reset_setMem_inv (glyphMemory_wf glyphs)

/-- Settles O17: the ROM region lies above the glyph region, and what neither load touches reads 0. -/
theorem resetBuildsInitialState : Obligations.ResetBuildsInitialState := by
  intro glyphs rom hglyphs hmin hmax
  rw [State.resetRom_of_valid ((romWellFormed_iff rom).mpr ⟨hmin, hmax⟩)]
  refine ⟨State.getV_reset, rfl, rfl, rfl, State.slot_reset, rfl, rfl, FrameBuffer.pixel_blank, rfl, ?_, ?_, ?_⟩
  · intro j hj
    show ((glyphMemory glyphs).load 0x200 rom).read (0x050 + j) = glyphs[j]
    rw [Memory.read_load, dif_neg (by omega), read_glyphMemory_glyph hglyphs hj]
  · intro j hj
    show ((glyphMemory glyphs).load 0x200 rom).read (0x200 + j) = rom[j]
    rw [Memory.read_load, dif_pos (by simp only [Config.memSize]; omega)]
    simp
  · intro a ha hglyph hrom
    show ((glyphMemory glyphs).load 0x200 rom).read a = 0
    rw [Memory.read_load, dif_neg (by omega), read_glyphMemory_other hglyphs hglyph]

/-- Settles O15: memory after reset lists nothing. -/
theorem resetStateMeetsInvariant : Obligations.ResetStateMeetsInvariant :=
  State.reset_setMem_inv Memory.wf_reset

/-- Settles O48: the case of `exec_withInputs` in which the random byte stays. -/
theorem keysReachOnlyKeyInstructions : Obligations.KeysReachOnlyKeyInstructions := by
  intro i s t ks hi h
  obtain ⟨-, hrnd, -⟩ := exec_inputs h
  have hkeys : ReadsKeys i → ks = s.keys := by
    rintro ⟨x, hx⟩
    obtain ⟨h1, h2, h3⟩ := hi x
    exact absurd hx (by simp [h1, h2, h3])
  have ht : t.withInputs ks s.rnd = { t with keys := ks } := by rw [← hrnd]; rfl
  exact (exec_withInputs hkeys (fun _ => rfl) h).trans (congrArg _ ht)

end Sys2Proof.Proofs

namespace Sys2Proof.Machine

/-! ### Store-regs within bounds (`43_index_memory.md` R195) -/

theorem State.storeBlock_pc (s : State) (k : Nat) : (s.storeBlock k).pc = s.pc := by rw [State.storeBlock_eq]

@[simp] theorem State.readByte_advance (s : State) (a : Nat) : s.advance.readByte a = s.readByte a := rfl

/-- Past its bounds check store-regs stores the block and moves on. -/
theorem exec_storeRegs_inBounds {s : State} {x : Reg} (h : s.index.toNat + x.val < 4096) :
    exec (.storeRegs x) s = .next (s.storeBlock (x.val + 1)).advance :=
  congrArg Host.Outcome.next (s.inBounds_pos h _)

/-- A stored register is read back at its place in the block. -/
theorem State.readByte_storeBlock_reg {s : State} {x r : Reg} (h : s.index.toNat + x.val < 4096) (hr : r ≤ x) :
    (s.storeBlock (x.val + 1)).readByte (s.index.toNat + r.val) = s.getV r := by
  have hle : r.val ≤ x.val := hr
  rw [State.readByte_storeBlock s (by omega), dif_pos (by omega)]
  simp only [Nat.add_sub_cancel_left]

end Sys2Proof.Machine

namespace Sys2Proof.Proofs

open Sys2Proof.Machine

/-- Settles O36: the stored bytes lie in memory, so the moved `pc` does not wrap and its fetch reads both of them. -/
theorem storedWordIsFetchedNext : Obligations.StoredWordIsFetchedNext := by
  intro s x j k hx hj hk hhigh hlow
  refine ⟨_, exec_storeRegs_inBounds hx, ?_⟩
  have hkx : k.val ≤ x.val := hk
  have hpc : (s.storeBlock (x.val + 1)).advance.pc.toNat = s.index.toNat + j.val := by
    rw [State.advance_pc, State.storeBlock_pc]
    bv_omega
  have hnext : s.index.toNat + j.val + 1 = s.index.toNat + k.val := by omega
  rw [State.fetch_ok (by omega), State.wordAtPc_eq, hpc, hnext, State.readByte_advance, State.readByte_advance,
    State.readByte_storeBlock_reg hx hj, State.readByte_storeBlock_reg hx hk]

end Sys2Proof.Proofs

namespace Sys2Proof

/-! ### The decoder undoes the encoder (`30_encoding.md` R91, R92, R96) -/

theorem decodeInstr_encode (i : Instr) : decodeInstr (encode i) = some i := by
  cases i with
  | clear | ret => rfl
  | copy | or | and | xor | addReg | sub | shr | subn | shl => simp [encode, decodeInstr, decodeGroup8]
  | skipIfPressed | skipIfNotPressed => simp [encode, decodeInstr, decodeGroupE]
  | readDelay | waitKey | setDelay | setSound | addIndex | glyphAddr | toBcd | storeRegs | loadRegs =>
    simp [encode, decodeInstr, decodeGroupF]
  | _ => simp [encode, decodeInstr]

/-! ### The encoder undoes the decoder: a word is determined by its fields, and each branch keeps all of them -/

theorem wordNNN_eq_iff {t : BitVec 4} {nnn : Addr12} {w : Word} :
    wordNNN t nnn = w ↔ fieldT w = t ∧ fieldNnn w = nnn := by
  constructor
  · rintro rfl; simp
  · rintro ⟨rfl, rfl⟩; exact word_eq_nnn w

theorem wordXKK_eq_iff {t : BitVec 4} {x : Reg} {kk : Byte} {w : Word} :
    wordXKK t x kk = w ↔ fieldT w = t ∧ fieldX w = x ∧ fieldKk w = kk := by
  constructor
  · rintro rfl; simp
  · rintro ⟨rfl, rfl, rfl⟩; exact word_eq_xkk w

theorem wordXYN_eq_iff {t : BitVec 4} {x y : Reg} {n : BitVec 4} {w : Word} :
    wordXYN t x y n = w ↔ fieldT w = t ∧ fieldX w = x ∧ fieldY w = y ∧ fieldN w = n := by
  constructor
  · rintro rfl; simp
  · rintro ⟨rfl, rfl, rfl, rfl⟩; exact word_eq_xyn w

section
variable {w : Word} {i : Instr}

theorem encode_of_decodeGroup0 (ht : fieldT w = 0x0) (h : decodeGroup0 w = some i) : encode i = w := by
  unfold decodeGroup0 at h
  split at h
  case h_1 hnnn =>
    cases h
    exact wordNNN_eq_iff (nnn := 0x0E0).mpr ⟨ht, BitVec.eq_of_toNat_eq hnnn⟩
  case h_2 hnnn =>
    cases h
    exact wordNNN_eq_iff (nnn := 0x0EE).mpr ⟨ht, BitVec.eq_of_toNat_eq hnnn⟩
  case h_3 => cases h

theorem encode_of_decodeGroup8 (ht : fieldT w = 0x8) (h : decodeGroup8 w = some i) : encode i = w := by
  unfold decodeGroup8 at h
  split at h
  case h_10 => cases h
  all_goals
    next hn =>
    cases h
    exact wordXYN_eq_iff.mpr ⟨ht, rfl, rfl, BitVec.eq_of_toNat_eq hn⟩

theorem encode_of_decodeGroupE (ht : fieldT w = 0xE) (h : decodeGroupE w = some i) : encode i = w := by
  unfold decodeGroupE at h
  split at h
  case h_3 => cases h
  all_goals
    next hkk =>
    cases h
    exact wordXKK_eq_iff.mpr ⟨ht, rfl, BitVec.eq_of_toNat_eq hkk⟩

theorem encode_of_decodeGroupF (ht : fieldT w = 0xF) (h : decodeGroupF w = some i) : encode i = w := by
  unfold decodeGroupF at h
  split at h
  case h_10 => cases h
  all_goals
    next hkk =>
    cases h
    exact wordXKK_eq_iff.mpr ⟨ht, rfl, BitVec.eq_of_toNat_eq hkk⟩

theorem encode_of_decodeInstr (h : decodeInstr w = some i) : encode i = w := by
  unfold decodeInstr at h
  split at h
  case h_1 ht => exact encode_of_decodeGroup0 (BitVec.eq_of_toNat_eq ht) h
  case h_9 ht => exact encode_of_decodeGroup8 (BitVec.eq_of_toNat_eq ht) h
  case h_15 ht => exact encode_of_decodeGroupE (BitVec.eq_of_toNat_eq ht) h
  case h_16 =>
    refine encode_of_decodeGroupF (BitVec.eq_of_toNat_eq ?_) h
    show (fieldT w).toNat = 15
    have hlt := (fieldT w).isLt
    simp only [imp_false] at *
    omega
  case h_2 ht | h_3 ht | h_11 ht | h_12 ht =>
    cases h
    exact wordNNN_eq_iff.mpr ⟨BitVec.eq_of_toNat_eq ht, rfl⟩
  case h_6 ht | h_10 ht =>
    obtain ⟨hn, h⟩ := Option.ite_none_right_eq_some.mp h
    cases h
    exact wordXYN_eq_iff.mpr ⟨BitVec.eq_of_toNat_eq ht, rfl, rfl, hn⟩
  case h_14 ht =>
    cases h
    exact wordXYN_eq_iff.mpr ⟨BitVec.eq_of_toNat_eq ht, rfl, rfl, rfl⟩
  all_goals
    next ht =>
    cases h
    exact wordXKK_eq_iff.mpr ⟨BitVec.eq_of_toNat_eq ht, rfl, rfl⟩

/-! ### Decoding a word, and a word at the head of a byte sequence (R90, R97) -/

/-- A word decodes to an instruction, or is rejected with itself as the reason. -/
theorem decodeWord_cases (w : Word) :
    (∃ i, decodeInstr w = some i ∧ decodeWord w = .ok i) ∨ decodeWord w = .error (.unknownOpcode w) := by
  unfold decodeWord
  cases h : decodeInstr w with
  | some i => exact .inl ⟨i, rfl, rfl⟩
  | none => exact .inr rfl

theorem decodeWord_encode (i : Instr) : decodeWord (encode i) = .ok i := by
  rw [decodeWord, decodeInstr_encode]

/-- Decoding and encoding are inverse: the words that decode to an instruction are its encoding alone. -/
theorem decodeWord_ok_iff : decodeWord w = .ok i ↔ encode i = w := by
  constructor
  · intro h
    rcases decodeWord_cases w with ⟨j, hj, hok⟩ | herr
    · obtain rfl := Except.ok.inj (hok.symm.trans h)
      exact encode_of_decodeInstr hj
    · cases herr.symm.trans h
  · rintro rfl
    exact decodeWord_encode i

theorem decodeBytes_bytesOfWord_append (h : decodeWord w = .ok i) (rest : List Byte) :
    decodeBytes (bytesOfWord w ++ rest) = .ok (i, rest) := by
  simp only [bytesOfWord, List.cons_append, List.nil_append, decodeBytes, wordOfBytes_bytesOfWord, h]

end

end Sys2Proof

namespace Sys2Proof.Machine

/-! ### The words a row of the table selects, by the row's format (`30_encoding.md` R91, R95, R96) -/

/-- A row selects the words of `build` where its mask and pattern ask of a word what encoding it again asks. -/
theorem SelectedBy.of_encode {p m : Word} {build : Word → Instr} (h : ∀ w, w &&& m = p ↔ encode (build w) = w) :
    SelectedBy p m build := fun w => (h w).trans decodeWord_ok_iff.symm

theorem selectedBy_word {p : Word} {i : Instr} (henc : encode i = p) : SelectedBy p 0xFFFF fun _ => i :=
  .of_encode fun w => (mask_FFFF w p).trans (by rw [henc, eq_comm])

section
variable (t : BitVec 4)

theorem selectedBy_nnn {build : Addr12 → Instr} (henc : ∀ nnn, encode (build nnn) = wordNNN t nnn) :
    SelectedBy (wordNNN t 0) 0xF000 fun w => build (fieldNnn w) :=
  .of_encode fun w => (mask_F000 w t).trans (by simp [henc, wordNNN_eq_iff])

theorem selectedBy_xkk {build : Reg → Byte → Instr} (henc : ∀ x kk, encode (build x kk) = wordXKK t x kk) :
    SelectedBy (wordNNN t 0) 0xF000 fun w => build (fieldX w) (fieldKk w) :=
  .of_encode fun w => (mask_F000 w t).trans (by simp [henc, wordXKK_eq_iff])

theorem selectedBy_xyn {build : Reg → Reg → BitVec 4 → Instr} (henc : ∀ x y n, encode (build x y n) = wordXYN t x y n) :
    SelectedBy (wordNNN t 0) 0xF000 fun w => build (fieldX w) (fieldY w) (fieldN w) :=
  .of_encode fun w => (mask_F000 w t).trans (by simp [henc, wordXYN_eq_iff])

theorem selectedBy_xy (n : BitVec 4) {build : Reg → Reg → Instr} (henc : ∀ x y, encode (build x y) = wordXYN t x y n) :
    SelectedBy (wordXYN t 0 0 n) 0xF00F fun w => build (fieldX w) (fieldY w) :=
  .of_encode fun w => (mask_F00F w t n).trans (by simp [henc, wordXYN_eq_iff])

theorem selectedBy_x (kk : Byte) {build : Reg → Instr} (henc : ∀ x, encode (build x) = wordXKK t x kk) :
    SelectedBy (wordXKK t 0 kk) 0xF0FF fun w => build (fieldX w) :=
  .of_encode fun w => (mask_F0FF w t kk).trans (by simp [henc, wordXKK_eq_iff])

end

/-! ### The opcode table -/

/-- The words of the row decode to one constructor, that of the row's mnemonic, on the fields of the word. -/
def RowDecodes (row : OpcodeRow) : Prop :=
  ∃ build : Word → Instr, SelectedBy row.pattern row.mask build ∧ ∀ w, (build w).mnemonic = row.mnemonic

theorem rowDecodes_of_mem_rowsA : ∀ row ∈ opcodeRowsA, RowDecodes row := by
  simp only [opcodeRowsA, List.forall_mem_cons]
  exact ⟨
    ⟨_, selectedBy_word (i := .clear) rfl, fun _ => rfl⟩,
    ⟨_, selectedBy_word (i := .ret) rfl, fun _ => rfl⟩,
    ⟨_, selectedBy_nnn 0x1 (build := .jump) fun _ => rfl, fun _ => rfl⟩,
    ⟨_, selectedBy_nnn 0x2 (build := .call) fun _ => rfl, fun _ => rfl⟩,
    ⟨_, selectedBy_xkk 0x3 (build := .skipEqImm) fun _ _ => rfl, fun _ => rfl⟩,
    ⟨_, selectedBy_xkk 0x4 (build := .skipNeImm) fun _ _ => rfl, fun _ => rfl⟩,
    ⟨_, selectedBy_xy 0x5 0x0 (build := .skipEqReg) fun _ _ => rfl, fun _ => rfl⟩,
    ⟨_, selectedBy_xkk 0x6 (build := .loadImm) fun _ _ => rfl, fun _ => rfl⟩,
    ⟨_, selectedBy_xkk 0x7 (build := .addImm) fun _ _ => rfl, fun _ => rfl⟩,
    ⟨_, selectedBy_xy 0x8 0x0 (build := .copy) fun _ _ => rfl, fun _ => rfl⟩,
    ⟨_, selectedBy_xy 0x8 0x1 (build := .or) fun _ _ => rfl, fun _ => rfl⟩,
    ⟨_, selectedBy_xy 0x8 0x2 (build := .and) fun _ _ => rfl, fun _ => rfl⟩,
    ⟨_, selectedBy_xy 0x8 0x3 (build := .xor) fun _ _ => rfl, fun _ => rfl⟩,
    ⟨_, selectedBy_xy 0x8 0x4 (build := .addReg) fun _ _ => rfl, fun _ => rfl⟩,
    ⟨_, selectedBy_xy 0x8 0x5 (build := .sub) fun _ _ => rfl, fun _ => rfl⟩,
    ⟨_, selectedBy_xy 0x8 0x6 (build := .shr) fun _ _ => rfl, fun _ => rfl⟩,
    ⟨_, selectedBy_xy 0x8 0x7 (build := .subn) fun _ _ => rfl, fun _ => rfl⟩,
    ⟨_, selectedBy_xy 0x8 0xE (build := .shl) fun _ _ => rfl, fun _ => rfl⟩,
    List.forall_mem_nil _⟩

theorem rowDecodes_of_mem_rowsB : ∀ row ∈ opcodeRowsB, RowDecodes row := by
  simp only [opcodeRowsB, List.forall_mem_cons]
  exact ⟨
    ⟨_, selectedBy_xy 0x9 0x0 (build := .skipNeReg) fun _ _ => rfl, fun _ => rfl⟩,
    ⟨_, selectedBy_nnn 0xA (build := .loadIndex) fun _ => rfl, fun _ => rfl⟩,
    ⟨_, selectedBy_nnn 0xB (build := .jumpOffset) fun _ => rfl, fun _ => rfl⟩,
    ⟨_, selectedBy_xkk 0xC (build := .randAnd) fun _ _ => rfl, fun _ => rfl⟩,
    ⟨_, selectedBy_xyn 0xD (build := .draw) fun _ _ _ => rfl, fun _ => rfl⟩,
    ⟨_, selectedBy_x 0xE 0x9E (build := .skipIfPressed) fun _ => rfl, fun _ => rfl⟩,
    ⟨_, selectedBy_x 0xE 0xA1 (build := .skipIfNotPressed) fun _ => rfl, fun _ => rfl⟩,
    ⟨_, selectedBy_x 0xF 0x07 (build := .readDelay) fun _ => rfl, fun _ => rfl⟩,
    ⟨_, selectedBy_x 0xF 0x0A (build := .waitKey) fun _ => rfl, fun _ => rfl⟩,
    ⟨_, selectedBy_x 0xF 0x15 (build := .setDelay) fun _ => rfl, fun _ => rfl⟩,
    ⟨_, selectedBy_x 0xF 0x18 (build := .setSound) fun _ => rfl, fun _ => rfl⟩,
    ⟨_, selectedBy_x 0xF 0x1E (build := .addIndex) fun _ => rfl, fun _ => rfl⟩,
    ⟨_, selectedBy_x 0xF 0x29 (build := .glyphAddr) fun _ => rfl, fun _ => rfl⟩,
    ⟨_, selectedBy_x 0xF 0x33 (build := .toBcd) fun _ => rfl, fun _ => rfl⟩,
    ⟨_, selectedBy_x 0xF 0x55 (build := .storeRegs) fun _ => rfl, fun _ => rfl⟩,
    ⟨_, selectedBy_x 0xF 0x65 (build := .loadRegs) fun _ => rfl, fun _ => rfl⟩,
    List.forall_mem_nil _⟩

theorem rowDecodes_of_mem {row : OpcodeRow} (h : row ∈ opcodeTable) : RowDecodes row :=
  (List.mem_append.mp h).elim (rowDecodes_of_mem_rowsA row) (rowDecodes_of_mem_rowsB row)

/-- A word that a row selects decodes to an instruction with the row's name. -/
theorem decodeWord_of_selects {row : OpcodeRow} (hrow : row ∈ opcodeTable) {w : Word} (h : row.selects w = true) :
    ∃ i, decodeWord w = .ok i ∧ i.mnemonic = row.mnemonic := by
  obtain ⟨build, hsel, hname⟩ := rowDecodes_of_mem hrow
  exact ⟨build w, (hsel w).mp (beq_iff_eq.mp h), hname w⟩

/-- Every instruction is encoded into its own row. -/
theorem inTable (i : Instr) : Laws.InTable.Statement i :=
  match i with
  | .clear => Laws.InTable.clear
  | .ret => Laws.InTable.ret
  | .jump nnn => Laws.InTable.jump nnn
  | .call nnn => Laws.InTable.call nnn
  | .skipEqImm x kk => Laws.InTable.skipEqImm x kk
  | .skipNeImm x kk => Laws.InTable.skipNeImm x kk
  | .skipEqReg x y => Laws.InTable.skipEqReg x y
  | .loadImm x kk => Laws.InTable.loadImm x kk
  | .addImm x kk => Laws.InTable.addImm x kk
  | .copy x y => Laws.InTable.copy x y
  | .or x y => Laws.InTable.or x y
  | .and x y => Laws.InTable.and x y
  | .xor x y => Laws.InTable.xor x y
  | .addReg x y => Laws.InTable.addReg x y
  | .sub x y => Laws.InTable.sub x y
  | .shr x y => Laws.InTable.shr x y
  | .subn x y => Laws.InTable.subn x y
  | .shl x y => Laws.InTable.shl x y
  | .skipNeReg x y => Laws.InTable.skipNeReg x y
  | .loadIndex nnn => Laws.InTable.loadIndex nnn
  | .jumpOffset nnn => Laws.InTable.jumpOffset nnn
  | .randAnd x kk => Laws.InTable.randAnd x kk
  | .draw x y n => Laws.InTable.draw x y n
  | .skipIfPressed x => Laws.InTable.skipIfPressed x
  | .skipIfNotPressed x => Laws.InTable.skipIfNotPressed x
  | .readDelay x => Laws.InTable.readDelay x
  | .waitKey x => Laws.InTable.waitKey x
  | .setDelay x => Laws.InTable.setDelay x
  | .setSound x => Laws.InTable.setSound x
  | .addIndex x => Laws.InTable.addIndex x
  | .glyphAddr x => Laws.InTable.glyphAddr x
  | .toBcd x => Laws.InTable.toBcd x
  | .storeRegs x => Laws.InTable.storeRegs x
  | .loadRegs x => Laws.InTable.loadRegs x

theorem opcodeTable_mnemonic_nodup : (opcodeTable.map OpcodeRow.mnemonic).Nodup := by decide

/-- A word that decodes is selected by every row, that is by the one row, with the name of its instruction. -/
theorem selects_of_decodeWord {row : OpcodeRow} (hrow : row ∈ opcodeTable) {w : Word} {i : Instr}
    (h : decodeWord w = .ok i) (hname : i.mnemonic = row.mnemonic) : row.selects w = true := by
  obtain ⟨row', hrow', hname', hsel⟩ := inTable i
  obtain rfl := List.inj_on_of_nodup_map opcodeTable_mnemonic_nodup hrow' hrow (hname'.trans hname)
  rwa [decodeWord_ok_iff.mp h] at hsel

/-- No row selects a word exactly where the decoder rejects it. -/
theorem selects_none_iff (w : Word) :
    (∀ row ∈ opcodeTable, row.selects w = false) ↔ decodeWord w = .error (.unknownOpcode w) := by
  constructor
  · intro hnone
    refine (decodeWord_cases w).resolve_left ?_
    rintro ⟨i, -, hok⟩
    obtain ⟨row, hrow, -, hsel⟩ := inTable i
    rw [decodeWord_ok_iff.mp hok, hnone row hrow] at hsel
    cases hsel
  · intro herr row hrow
    refine Bool.eq_false_iff.mpr fun hsel => ?_
    obtain ⟨i, hok, -⟩ := decodeWord_of_selects hrow hsel
    cases herr.symm.trans hok

/-! ### The step at a word that does not decode (`60_exceptions.md` R253, R256) -/

theorem State.nextInstr_of_unknown {s : State} (hpc : s.pc.toNat ≤ 4094) {e : DecodeError}
    (h : decodeWord s.wordAtPc = .error e) : s.nextInstr = .error ⟨.unknownOpcode, s.wordAtPc⟩ := by
  simp only [State.nextInstr, State.fetch_ok hpc, h]

/-- A fault of fetch or decode is all that its step commits (`40_cycle.md` R128). -/
theorem step_of_nextInstr_error {s : State} {f : FaultRecord} (hrun : s.fault = none) (h : s.nextInstr = .error f) :
    step s = .next (s.faultedWith f.kind f.info) := by
  simp only [step, hrun, h, State.raise_eq, saturate16_toNat]

end Sys2Proof.Machine

namespace Sys2Proof.Proofs

open Sys2Proof.Machine

/-- Settles O2: the decoder reads back the fields that the encoder placed, and the bytes of a word make the word again. -/
theorem encodeThenDecode : Obligations.EncodeThenDecode :=
  fun i rest _ => ⟨decodeWord_encode i, decodeBytes_bytesOfWord_append (decodeWord_encode i) rest⟩

/-- Settles O3: each branch of the decoder keeps every field of the word that it has not tested. -/
theorem decodeThenEncode : Obligations.DecodeThenEncode :=
  fun _ _ h => decodeWord_ok_iff.mp h

/-- Settles O4: a row's words decode by its format; back, an instruction lies in its own row, and no two rows share a name. -/
theorem decodeFollowsOpcodeTable : Obligations.DecodeFollowsOpcodeTable :=
  fun _ _ hrow => ⟨decodeWord_of_selects hrow, fun ⟨_, hok, hname⟩ => selects_of_decodeWord hrow hok hname⟩

/-- Settles O5: the decoder rejects exactly what no row selects, and its fault is all that the step commits. -/
theorem unmatchedWordIsUnknownOpcode : Obligations.UnmatchedWordIsUnknownOpcode := by
  intro w
  refine ⟨selects_none_iff w, fun s hnone hrun hpc hword => ?_⟩
  subst hword
  exact step_of_nextInstr_error hrun (State.nextInstr_of_unknown hpc ((selects_none_iff _).mp hnone))

/-- Settles O1: twelve closed evaluations of the decoder. -/
theorem sampleWordsDecode : Obligations.SampleWordsDecode := by
  unfold Obligations.SampleWordsDecode
  decide

end Sys2Proof.Proofs

namespace Sys2Proof.Machine

/-! ### The step, by what fetch, decode and Execute answer (`40_cycle.md` R121, R127, R128) -/

theorem State.nextInstr_of_pc_ge {s : State} (h : 4095 ≤ s.pc.toNat) : s.nextInstr = .error ⟨.outOfBounds, s.pc⟩ := by
  simp only [State.nextInstr, State.fetch_error h]

/-- Fetch and decode answer the instruction that the two bytes at `pc` decode to. -/
theorem State.nextInstr_of_decodeBytes {s : State} {i : Instr} (hpc : s.pc.toNat ≤ 4094)
    (h : decodeBytes [s.readByte s.pc.toNat, s.readByte (s.pc.toNat + 1)] = .ok (i, [])) : s.nextInstr = .ok i := by
  rw [decodeBytes_pair, ← State.wordAtPc_eq] at h
  exact (s.nextInstr_ok_iff i).mpr ⟨hpc, h⟩

theorem step_of_fault {s : State} {f : FaultRecord} (h : s.fault = some f) : step s = .next s := by
  simp only [step, h]

theorem step_of_nextInstr_ok {s u : State} {i : Instr} (hrun : s.fault = none) (hi : s.nextInstr = .ok i)
    (hu : exec i s = .next u) : step s = .next u.endStep := by
  simp only [step, hrun, hi, hu, endStepOf]

/-- The step of a decoded instruction: its effect, then the tick and the next input, or its own fault and nothing more. -/
theorem step_of_decoded {s : State} {i : Instr} (hrun : s.fault = none) (hi : s.nextInstr = .ok i) :
    (∃ u, exec i s = .next u ∧ Effect i s u ∧ u.fault = none ∧ step s = .next u.tick.nextInput) ∨
      (∃ f : FaultRecord, exec i s = .next (s.faultedWith f.kind f.info) ∧ step s = .next (s.faultedWith f.kind f.info)) := by
  rcases execSpec i s with ⟨u, -, hu, heff⟩ | ⟨f, -, hu⟩
  · have hnone : u.fault = none := heff.fault.trans hrun
    refine .inl ⟨u, hu, heff, hnone, ?_⟩
    rw [step_of_nextInstr_ok hrun hi hu, State.endStep_of_none hnone]
  · refine .inr ⟨f, hu, ?_⟩
    rw [step_of_nextInstr_ok hrun hi hu, State.endStep_of_fault rfl]

/-! ### Who writes a timer (`45_keypad_timer_random.md` R236, R237) -/

theorem exec_dt_cases {i : Instr} {s t : State} (h : exec i s = .next t) :
    (∃ x, i = .setDelay x ∧ t.dt = s.getV x) ∨ ((∀ x, i ≠ .setDelay x) ∧ t.dt = s.dt) := by
  cases i with
  | setDelay x =>
    obtain rfl := Host.Outcome.next.inj h
    exact .inl ⟨x, rfl, rfl⟩
  | _ => exact .inr ⟨nofun, exec_sameBut h .dt (by simp [mayChange])⟩

theorem exec_st_cases {i : Instr} {s t : State} (h : exec i s = .next t) :
    (∃ x, i = .setSound x ∧ t.st = s.getV x) ∨ ((∀ x, i ≠ .setSound x) ∧ t.st = s.st) := by
  cases i with
  | setSound x =>
    obtain rfl := Host.Outcome.next.inj h
    exact .inl ⟨x, rfl, rfl⟩
  | _ => exact .inr ⟨nofun, exec_sameBut h .st (by simp [mayChange])⟩

theorem getV_of_exec_readDelay {s t : State} {x : Reg} (h : exec (.readDelay x) s = .next t) : t.getV x = s.dt := by
  obtain rfl := Host.Outcome.next.inj h
  simp

end Sys2Proof.Machine

namespace Sys2Proof.Proofs

open Sys2Proof.Machine

/-- Settles O9: fetch and decode fault before any effect, and so does an instruction; every other step leaves `FAULT` none. -/
theorem faultingStepChangesOnlyFault : Obligations.FaultingStepChangesOnlyFault := by
  intro s t hrun hstep hfault
  rcases step_cases hstep with ⟨f, hf, -⟩ | ⟨f, -, -, rfl⟩ | ⟨i, -, -, hi, -, -⟩
  · cases hrun.symm.trans hf
  · exact ⟨f.kind, f.info, rfl⟩
  · rcases step_of_decoded hrun hi with ⟨u, -, -, hnone, hu⟩ | ⟨f, -, hu⟩
    · obtain rfl := Host.Outcome.next.inj (hu.symm.trans hstep)
      exact absurd (by simpa using hnone) hfault
    · exact ⟨f.kind, f.info, Host.Outcome.next.inj (hstep.symm.trans hu)⟩

/-- Settles O12: the tick counts down what the instruction left in each timer, and a fault leaves the start state's timers. -/
theorem timersTickOncePerUnfaultedStep : Obligations.TimersTickOncePerUnfaultedStep := by
  intro s i hrun hpc hbytes
  rcases step_of_decoded hrun (State.nextInstr_of_decodeBytes hpc hbytes) with ⟨u, hu, -, hnone, hstep⟩ | ⟨f, hu, hstep⟩
  · obtain ⟨hsame, hend, -⟩ := u.endStep_same
    rw [State.endStep_of_none hnone] at hsame hend
    refine ⟨_, u, hstep, hu, hsame, hend, fun _ => ⟨?_, ?_, ?_⟩, fun h => absurd (by simpa using hnone) h⟩
    · rw [State.nextInput_dt, State.tick_dt, countDown_toNat]
      rcases exec_dt_cases hu with ⟨x, rfl, hdt⟩ | ⟨hother, hdt⟩ <;> rw [hdt]
      split
      · exact absurd rfl (hother _)
      · rfl
    · rw [State.nextInput_st, State.tick_st, countDown_toNat]
      rcases exec_st_cases hu with ⟨x, rfl, hst⟩ | ⟨hother, hst⟩ <;> rw [hst]
      split
      · exact absurd rfl (hother _)
      · rfl
    · rintro x rfl
      rw [State.getV_nextInput, State.getV_tick, getV_of_exec_readDelay hu]
  · exact ⟨_, _, hstep, hu, SameBut.refl _ _, rfl, nofun, fun _ => ⟨rfl, rfl⟩⟩

/-- Settles O13: the effect leaves `pc` as the table says, and neither the tick nor the next input moves it. -/
theorem unfaultedStepLeavesListedPc : Obligations.UnfaultedStepLeavesListedPc := by
  intro s t i hrun hpc hbytes hstep hfault
  rcases step_of_decoded hrun (State.nextInstr_of_decodeBytes hpc hbytes) with ⟨u, -, heff, -, hu⟩ | ⟨f, -, hu⟩ <;>
    obtain rfl := Host.Outcome.next.inj (hu.symm.trans hstep)
  · rw [State.nextInput_pc, State.tick_pc, heff.pc]
  · cases hfault

/-- Settles O6: the two ways the step of a decoded instruction ends are the two branches of the statement. -/
theorem stepRunsDecodedInstruction : Obligations.StepRunsDecodedInstruction := by
  intro s i hrun hpc hbytes
  rcases step_of_decoded hrun (State.nextInstr_of_decodeBytes hpc hbytes) with ⟨u, hu, -, hnone, hstep⟩ | ⟨f, hu, hstep⟩
  · simp only [hstep, hu, if_pos hnone]
  · simp only [hstep, hu]
    exact congrArg _ (if_neg (Option.some_ne_none _)).symm

/-- Settles O7: the word at `pc` is high byte first, and where fetch fails its fault is all that the step commits. -/
theorem fetchReadsTwoBytesOrFaults : Obligations.FetchReadsTwoBytesOrFaults := by
  intro s
  refine ⟨fun hpc => ⟨s.wordAtPc, State.fetch_ok hpc, ?_⟩, fun hpc hrun => ?_⟩
  · rw [State.wordAtPc_eq, wordOfBytes_toNat]
  · exact step_of_nextInstr_error hrun (State.nextInstr_of_pc_ge hpc)

/-- Settles O11: no instruction stops the model, and a step either ignores the request, commits a fault or runs an instruction. -/
theorem everyStepAnswersNext : Obligations.EveryStepAnswersNext := by
  refine ⟨exec_next, fun s => ?_⟩
  cases hrun : s.fault with
  | some f => exact ⟨s, step_of_fault hrun⟩
  | none =>
    cases hi : s.nextInstr with
    | error f => exact ⟨_, step_of_nextInstr_error hrun hi⟩
    | ok i =>
      obtain ⟨u, hu⟩ := exec_next i s
      exact ⟨_, step_of_nextInstr_ok hrun hi hu⟩

end Sys2Proof.Proofs

namespace Sys2Proof.Machine

/-! ### Control transfers without a fault of their own (`40_cycle.md` R125, `41_control_flow.md` R141 to R147) -/

theorem exec_of_ownFault_none {i : Instr} {s : State} (h : ownFault i s = none) : ∃ t, exec i s = .next t ∧ Effect i s t := by
  rcases execSpec i s with ⟨t, -, ht, heff⟩ | ⟨f, hf, -⟩
  · exact ⟨t, ht, heff⟩
  · exact absurd (h.symm.trans hf) nofun

/-- An instruction that neither faults nor writes any piece of state moves `pc` by the table of R125, and that is all. -/
theorem exec_movesPc {i : Instr} {s : State} {w : Word} (hw : pcAfter i s = w) (hf : ownFault i s = none := by rfl)
    (hm : mayChange i = [] := by rfl) : ∃ t, exec i s = .next t ∧ t.pc = w ∧ SameBut [] s t := by
  obtain ⟨t, ht, heff⟩ := exec_of_ownFault_none hf
  exact ⟨t, ht, heff.pc.trans hw, hm ▸ heff.same⟩

/-! ### Call and return, on each side of their stack check (`41_control_flow.md` R140, R142) -/

theorem exec_call_of_lt {s : State} (h : s.sp.val < 16) (nnn : Addr12) :
    ∃ t, exec (.call nnn) s = .next t ∧ t.pc = nnn.setWidth 16 ∧ t.sp.val = s.sp.val + 1 ∧
      (∀ k : Fin 16, t.slot k = if k.val = s.sp.val then s.pc else s.slot k) ∧ SameBut [.stack] s t := by
  rcases s.push_cases s.pc fun t => t.setPc (zextAddr nnn) with ⟨t, -, hpush, hsp, hslot, hsame, -⟩ | ⟨hfull, -⟩
  · exact ⟨_, congrArg Host.Outcome.next hpush, rfl, hsp, hslot, hsame.setPc _⟩
  · omega

theorem exec_call_of_full {s : State} (h : s.sp.val = 16) (nnn : Addr12) :
    exec (.call nnn) s = .next (s.faultedWith .stackFault 16) := by
  rcases s.push_cases s.pc fun t => t.setPc (zextAddr nnn) with ⟨-, hlt, -⟩ | ⟨-, hpush⟩
  · omega
  · exact congrArg Host.Outcome.next hpush

theorem exec_ret_of_pos {s : State} (h : 0 < s.sp.val) :
    ∃ (t : State) (j : Fin 16), exec .ret s = .next t ∧ j.val + 1 = s.sp.val ∧ t.pc = s.slot j + 2 ∧ t.sp.val = j.val ∧
      (∀ k, t.slot k = s.slot k) ∧ SameBut [.stack] s t := by
  rcases s.pop_cases fun a t => t.setPc (a + 2) with ⟨t, j, -, hj, hpop, hsp, hslot, hsame, -⟩ | ⟨hempty, -⟩
  · exact ⟨_, j, congrArg Host.Outcome.next hpop, hj, rfl, hsp, hslot, hsame.setPc _⟩
  · omega

theorem exec_ret_of_empty {s : State} (h : s.sp.val = 0) : exec .ret s = .next (s.faultedWith .stackFault 0) := by
  rcases s.pop_cases fun a t => t.setPc (a + 2) with ⟨-, -, hpos, -⟩ | ⟨-, hpop⟩
  · omega
  · exact congrArg Host.Outcome.next hpop

/-! ### Instructions one after the other -/

theorem Piece.Same.trans {p : Piece} {s t u : State} (h : p.Same s t) (h' : p.Same t u) : p.Same s u := by
  cases p with
  | index | dt | st | fault => exact Eq.trans h' h
  | regs | memory => exact fun a => (h' a).trans (h a)
  | screen => exact fun r c => (h' r c).trans (h r c)
  | stack =>
    obtain ⟨⟨hsp, hslot⟩, hsp', hslot'⟩ := And.intro h h'
    exact ⟨hsp'.trans hsp, fun k => (hslot' k).trans (hslot k)⟩
  | inputs =>
    obtain ⟨⟨hkeys, hrnd, hpend, hno⟩, hkeys', hrnd', hpend', hno'⟩ := And.intro h h'
    exact ⟨hkeys'.trans hkeys, hrnd'.trans hrnd, hpend'.trans hpend, hno'.trans hno⟩

theorem SameBut.trans {l : List Piece} {s t u : State} (h : SameBut l s t) (h' : SameBut l t u) : SameBut l s u :=
  fun p hp => (h p hp).trans (h' p hp)

theorem execAll_cons {i : Instr} {s t : State} (h : exec i s = .next t) (rest : List Instr) :
    execAll (i :: rest) s = execAll rest t := by
  simp only [execAll, h]

theorem execAll_append {is : List Instr} {s t : State} (h : execAll is s = .next t) (js : List Instr) :
    execAll (is ++ js) s = execAll js t := by
  induction is generalizing s with
  | nil =>
    obtain rfl := Host.Outcome.next.inj h
    rfl
  | cons i is ih =>
    obtain ⟨u, hu⟩ := exec_next i s
    rw [execAll_cons hu] at h
    rw [List.cons_append, execAll_cons hu, ih h]

/-- Calls that fit on the stack succeed, whatever their targets, and touch nothing but the stack and `pc`. -/
theorem execAll_calls (targets : List Addr12) {s : State} (h : s.sp.val + targets.length ≤ 16) :
    ∃ t, execAll (targets.map .call) s = .next t ∧ t.sp.val = s.sp.val + targets.length ∧ SameBut [.stack] s t := by
  induction targets generalizing s with
  | nil => exact ⟨s, rfl, rfl, .refl _ s⟩
  | cons nnn rest ih =>
    rw [List.length_cons] at h ⊢
    obtain ⟨u, hu, -, husp, -, husame⟩ := exec_call_of_lt (s := s) (by omega) nnn
    obtain ⟨t, ht, htsp, htsame⟩ := ih (s := u) (by omega)
    exact ⟨t, (execAll_cons hu _).trans ht, by omega, husame.trans htsame⟩

end Sys2Proof.Machine

namespace Sys2Proof.Proofs

open Sys2Proof.Machine

/-- Settles O19: the four skips are rows of the table of R125, whose conditions compare bytes where the statement compares
their values. -/
theorem skipsCompareAndMovePc : Obligations.SkipsCompareAndMovePc := by
  refine ⟨selectedBy_xkk 0x3 fun _ _ => rfl, selectedBy_xkk 0x4 fun _ _ => rfl, selectedBy_xy 0x5 0x0 fun _ _ => rfl,
    selectedBy_xy 0x9 0x0 fun _ _ => rfl, fun s x y kk => ⟨exec_movesPc ?_, exec_movesPc ?_, exec_movesPc ?_, exec_movesPc ?_⟩⟩
  all_goals simp only [pcAfter, BitVec.toNat_inj, ne_eq, ite_not]

/-- Settles O20: `pc` is `nnn` widened, which keeps its value. -/
theorem jumpSetsPc : Obligations.JumpSetsPc := by
  refine ⟨selectedBy_nnn 0x1 fun _ => rfl, fun s nnn => ?_⟩
  obtain ⟨t, ht, hpc, hsame⟩ := exec_movesPc (i := .jump nnn) (s := s) rfl
  exact ⟨t, ht, by rw [hpc, pcAfter, BitVec.toNat_setWidth_of_le (by decide)], hsame⟩

/-- Settles O21: the largest sum, 0x0FF + 0xFFF, has 16 bits, so `pc` holds it unreduced. -/
theorem jumpOffsetAddsRegisterZero : Obligations.JumpOffsetAddsRegisterZero := by
  refine ⟨selectedBy_nnn 0xB fun _ => rfl, fun s nnn => ?_⟩
  obtain ⟨t, ht, hpc, hsame⟩ := exec_movesPc (i := .jumpOffset nnn) (s := s) rfl
  refine ⟨t, ht, ?_, hsame⟩
  rw [hpc, pcAfter, BitVec.toNat_ofNat, Nat.mod_eq_of_lt (by omega)]

/-- Settles O22: the push writes the slot and moves `SP`, or raises before the jump. -/
theorem callPushesItsOwnAddress : Obligations.CallPushesItsOwnAddress := by
  refine ⟨selectedBy_nnn 0x2 fun _ => rfl, fun s nnn => ⟨fun hlt => ?_, fun hfull => exec_call_of_full hfull nnn⟩⟩
  obtain ⟨t, ht, hpc, hrest⟩ := exec_call_of_lt hlt nnn
  exact ⟨t, ht, by rw [hpc, BitVec.toNat_setWidth_of_le (by decide)], hrest⟩

/-- Settles O23: the pop reads the slot below `SP` and moves `SP` onto it, or raises before `pc` moves. -/
theorem returnPopsAndAddsTwo : Obligations.ReturnPopsAndAddsTwo := by
  refine ⟨selectedBy_word rfl, fun s => ⟨fun hpos => ?_, exec_ret_of_empty⟩⟩
  obtain ⟨t, j, ht, hj, hpc, hsp, hslot, hsame⟩ := exec_ret_of_pos hpos
  refine ⟨t, ht, by omega, hslot, fun k hk => ?_, hsame⟩
  obtain rfl : k = j := by omega
  rw [hpc, BitVec.toNat_add]
  rfl

/-- Settles O24: the slot that the return pops is the one that the call has just written. -/
theorem callThenReturnComesBack : Obligations.CallThenReturnComesBack := by
  intro s nnn hlt
  obtain ⟨u, hu, -, husp, huslot, husame⟩ := exec_call_of_lt hlt nnn
  obtain ⟨t, j, ht, hj, hpc, hsp, hslot, hsame⟩ := exec_ret_of_pos (s := u) (by omega)
  have hjsp : j.val = s.sp.val := by omega
  refine ⟨t, ?_, ?_, Fin.ext (hsp.trans hjsp), fun k => (hslot k).trans (huslot k), husame.trans hsame⟩
  · rw [execAll_cons hu, execAll_cons ht, execAll]
  · rw [hpc, huslot, if_pos hjsp]

/-- Settles O25: 16 calls fit on an empty stack and fill it, and a call on a full stack faults. -/
theorem sixteenNestedCallsThenOverflow : Obligations.SixteenNestedCallsThenOverflow := by
  intro s targets hempty
  refine ⟨fun hlen => ?_, fun hlen nnn => ?_⟩
  all_goals obtain ⟨t, ht, hsp, hsame⟩ := execAll_calls targets (s := s) (by omega)
  · exact ⟨t, ht, by omega, hsame .fault (by decide)⟩
  · have hfull : t.sp.val = 16 := by omega
    refine ⟨t.faultedWith .stackFault 16, ?_, hfull, rfl⟩
    rw [execAll_append ht, execAll_cons (exec_call_of_full hfull nnn), execAll]

end Sys2Proof.Proofs

namespace Sys2Proof.Machine

/-! ### Flags and differences as numbers (`42_register_alu.md` R166 to R170) -/

theorem flagByte_toNat (c : Bool) : (flagByte c).toNat = if c then 1 else 0 := by cases c <;> rfl

theorem carryFlag_eq (a b : Byte) : carryFlag a b = if 255 < a.toNat + b.toNat then 1 else 0 := by
  simp only [carryFlag, flagByte, decide_eq_true_eq]

theorem noBorrowFlag_toNat (a b : Byte) : (noBorrowFlag a b).toNat = if b.toNat ≤ a.toNat then 1 else 0 := by
  simp only [noBorrowFlag, flagByte_toNat, decide_eq_true_eq]

theorem shiftRightFlag_toNat (a : Byte) : (shiftRightFlag a).toNat = a.toNat % 2 := by
  simp only [shiftRightFlag, flagByte_toNat, BitVec.getLsbD, Nat.testBit_zero, decide_eq_true_eq]
  split <;> omega

theorem shiftLeftFlag_toNat (a : Byte) : (shiftLeftFlag a).toNat = a.toNat / 128 := by
  have hlt := a.isLt
  simp only [shiftLeftFlag, flagByte_toNat, BitVec.getLsbD, Nat.testBit_eq_decide_div_mod_eq, decide_eq_true_eq]
  split <;> omega

theorem byte_toNat_sub (a b : Byte) : (a - b).toNat = (a.toNat + 256 - b.toNat) % 256 := by bv_omega

theorem State.toNat_getV_setFlag (s : State) (f : Byte) (r : Reg) :
    ((s.setFlag f).getV r).toNat = if r = flagReg then f.toNat else (s.getV r).toNat := by
  rw [State.getV_setFlag, apply_ite BitVec.toNat]

/-! ### The instructions that write registers only (R160 to R170) -/

/-- The row of such an instruction in the spec's tables: no fault of its own, `pc` to the next word, only registers written. -/
structure RegsRow (i : Instr) (s : State) : Prop where
  noFault : ownFault i s = none
  pc : pcAfter i s = s.pc + 2
  writes : mayChange i = [.regs]

section
variable {i : Instr} {s : State} {x : Reg} {b f : Byte}

/-- Such an instruction moves on and leaves all but its own registers. -/
theorem exec_regsFrame {t : State} (he : exec i s = .next t) (hrow : RegsRow i s := by exact ⟨rfl, rfl, rfl⟩) :
    t.pc = s.pc + 2 ∧ SameRegsBut (mayWrite i) s t ∧ SameBut [.regs] s t := by
  obtain ⟨hf, hpc, hm⟩ := hrow
  obtain ⟨u, hu, heff⟩ := exec_of_ownFault_none hf
  obtain rfl := Host.Outcome.next.inj (hu.symm.trans he)
  exact ⟨heff.pc.trans hpc, heff.regs, hm ▸ heff.same⟩

/-- The result, and no flag: the destination holds it. -/
theorem exec_writesReg (he : exec i s = .next (s.setV x b).advance) (hrow : RegsRow i s := by exact ⟨rfl, rfl, rfl⟩) :
    ∃ t, exec i s = .next t ∧ t.getV x = b ∧ t.pc = s.pc + 2 ∧ SameRegsBut (mayWrite i) s t ∧ SameBut [.regs] s t :=
  ⟨_, he, by rw [State.getV_advance, State.getV_setV, if_pos rfl], exec_regsFrame he hrow⟩

/-- The result, then the flag: `VF` holds the flag in any case, the destination its result unless it is `VF`. -/
theorem exec_writesRegThenFlag (he : exec i s = .next ((s.setV x b).setFlag f).advance)
    (hrow : RegsRow i s := by exact ⟨rfl, rfl, rfl⟩) :
    ∃ t, exec i s = .next t ∧ t.getV flagReg = f ∧ (x ≠ flagReg → t.getV x = b) ∧
      t.pc = s.pc + 2 ∧ SameRegsBut (mayWrite i) s t ∧ SameBut [.regs] s t := by
  refine ⟨_, he, ?_, fun hx => ?_, exec_regsFrame he hrow⟩
  · rw [State.getV_advance, State.getV_setFlag, if_pos rfl]
  · rw [State.getV_advance, State.getV_setFlag, if_neg hx, State.getV_setV, if_pos rfl]

/-- The flag, then the result: the destination holds its result in any case, `VF` the flag unless it is the destination. -/
theorem exec_writesFlagThenReg (he : exec i s = .next ((s.setFlag f).setV x b).advance)
    (hrow : RegsRow i s := by exact ⟨rfl, rfl, rfl⟩) :
    ∃ t, exec i s = .next t ∧ t.getV x = b ∧ (x ≠ flagReg → t.getV flagReg = f) ∧
      t.pc = s.pc + 2 ∧ SameRegsBut (mayWrite i) s t ∧ SameBut [.regs] s t := by
  refine ⟨_, he, ?_, fun hx => ?_, exec_regsFrame he hrow⟩
  · rw [State.getV_advance, State.getV_setV, if_pos rfl]
  · rw [State.getV_advance, State.getV_setV, if_neg hx.symm, State.getV_setFlag, if_pos rfl]

/-- A bitwise operation: the result bit by bit, then `VF` cleared (R163 to R165). -/
theorem exec_writesBitsThenClearsFlag {y : Reg} {op : Bool → Bool → Bool}
    (he : exec i s = .next ((s.setV x b).setFlag 0).advance)
    (hb : ∀ k, b.getLsbD k = op ((s.getV x).getLsbD k) ((s.getV y).getLsbD k))
    (hrow : RegsRow i s := by exact ⟨rfl, rfl, rfl⟩) :
    ∃ t, exec i s = .next t ∧ t.getV flagReg = 0 ∧
      (x ≠ flagReg → ∀ k < 8, (t.getV x).getLsbD k = op ((s.getV x).getLsbD k) ((s.getV y).getLsbD k)) ∧
      t.pc = s.pc + 2 ∧ SameRegsBut (mayWrite i) s t ∧ SameBut [.regs] s t := by
  obtain ⟨t, ht, hflag, hx, hframe⟩ := exec_writesRegThenFlag he hrow
  exact ⟨t, ht, hflag, fun hne k _ => by rw [hx hne, hb k], hframe⟩

/-- The subtraction of `V[c]` from `V[a]`, either of which may be `VF`: the no-borrow flag of the old values first, then the
difference of the registers as they stand, where `VF` reads as the flag (R167, R169). -/
theorem exec_writesBorrowThenDifference {a c : Reg}
    (he : exec i s = .next ((s.setFlag f).setV x ((s.setFlag f).getV a - (s.setFlag f).getV c)).advance)
    (hflag : f = noBorrowFlag (s.getV a) (s.getV c)) (hrow : RegsRow i s := by exact ⟨rfl, rfl, rfl⟩) :
    ∃ t f, exec i s = .next t ∧ f = (if (s.getV c).toNat ≤ (s.getV a).toNat then 1 else 0) ∧
      (t.getV x).toNat = ((if a = flagReg then f else (s.getV a).toNat) + 256 -
        (if c = flagReg then f else (s.getV c).toNat)) % 256 ∧
      (x ≠ flagReg → (t.getV flagReg).toNat = f) ∧
      t.pc = s.pc + 2 ∧ SameRegsBut (mayWrite i) s t ∧ SameBut [.regs] s t := by
  obtain ⟨t, ht, hx, hvf, hframe⟩ := exec_writesFlagThenReg he hrow
  refine ⟨t, f.toNat, ht, hflag ▸ noBorrowFlag_toNat _ _, ?_, fun hne => congrArg BitVec.toNat (hvf hne), hframe⟩
  rw [hx, byte_toNat_sub, State.toNat_getV_setFlag, State.toNat_getV_setFlag]

end

end Sys2Proof.Machine

namespace Sys2Proof.Proofs

open Sys2Proof.Machine

/-- Settles O26: one register write each, and byte addition is addition modulo 256. -/
theorem loadAddCopyWriteDestination : Obligations.LoadAddCopyWriteDestination := by
  refine ⟨selectedBy_xkk 0x6 fun _ _ => rfl, selectedBy_xkk 0x7 fun _ _ => rfl, selectedBy_xy 0x8 0x0 fun _ _ => rfl,
    fun s x y kk => ⟨exec_writesReg (i := .loadImm x kk) rfl, ?_, exec_writesReg (i := .copy x y) rfl⟩⟩
  obtain ⟨t, ht, hx, hframe⟩ := exec_writesReg (i := .addImm x kk) (s := s) rfl
  exact ⟨t, ht, by rw [hx, BitVec.toNat_add], hframe⟩

/-- Settles O27: the result is written before `VF` is cleared, so it stands only where it is not in `VF`. -/
theorem logicWritesResultThenClearsFlag : Obligations.LogicWritesResultThenClearsFlag :=
  ⟨selectedBy_xy 0x8 0x1 fun _ _ => rfl, selectedBy_xy 0x8 0x2 fun _ _ => rfl, selectedBy_xy 0x8 0x3 fun _ _ => rfl,
    fun s x y => ⟨
      exec_writesBitsThenClearsFlag (i := .or x y) (op := or) rfl fun _ => BitVec.getLsbD_or,
      exec_writesBitsThenClearsFlag (i := .and x y) (op := and) rfl fun _ => BitVec.getLsbD_and,
      exec_writesBitsThenClearsFlag (i := .xor x y) (op := xor) rfl fun _ => BitVec.getLsbD_xor⟩⟩

/-- Settles O28: the sum is of the old values, and written last. -/
theorem addRegWritesSumAndCarry : Obligations.AddRegWritesSumAndCarry := by
  refine ⟨selectedBy_xy 0x8 0x4 fun _ _ => rfl, fun s x y => ?_⟩
  obtain ⟨t, ht, hx, hflag, hframe⟩ := exec_writesFlagThenReg (i := .addReg x y) (s := s) rfl
  exact ⟨t, ht, by rw [hx, BitVec.toNat_add], fun hne => (hflag hne).trans (carryFlag_eq _ _), hframe⟩

/-- Settles O29: `sub` and `subn` are one subtraction with its operands in either order. -/
theorem subtractionsWriteBorrowFirst : Obligations.SubtractionsWriteBorrowFirst :=
  ⟨selectedBy_xy 0x8 0x5 fun _ _ => rfl, selectedBy_xy 0x8 0x7 fun _ _ => rfl, fun s x y => ⟨
    exec_writesBorrowThenDifference (i := .sub x y) (a := x) (c := y) rfl rfl,
    exec_writesBorrowThenDifference (i := .subn x y) (a := y) (c := x) rfl rfl⟩⟩

/-- Settles O30: the shift is of the register after the flag write, where `VF` reads as the bit moved out. -/
theorem shiftsMoveOneBitThroughFlag : Obligations.ShiftsMoveOneBitThroughFlag := by
  refine ⟨selectedBy_xy 0x8 0x6 fun _ _ => rfl, selectedBy_xy 0x8 0xE fun _ _ => rfl, fun s x y => ⟨?_, ?_⟩⟩
  · obtain ⟨t, ht, hx, hflag, hframe⟩ := exec_writesFlagThenReg (i := .shr x y) (s := s) rfl
    refine ⟨t, _, ht, shiftRightFlag_toNat _, ?_, fun hne => congrArg BitVec.toNat (hflag hne), hframe⟩
    rw [hx, BitVec.toNat_ushiftRight, State.toNat_getV_setFlag, Nat.shiftRight_eq_div_pow]
  · obtain ⟨t, ht, hx, hflag, hframe⟩ := exec_writesFlagThenReg (i := .shl x y) (s := s) rfl
    refine ⟨t, _, ht, shiftLeftFlag_toNat _, ?_, fun hne => congrArg BitVec.toNat (hflag hne), hframe⟩
    rw [hx, BitVec.toNat_shiftLeft, State.toNat_getV_setFlag, Nat.shiftLeft_eq]

/-- Settles O31: the rows are O26 to O30 at `x = VF`, where a right shift of the flag leaves 0 and a left shift its double. -/
theorem flagRegisterAsDestination : Obligations.FlagRegisterAsDestination := by
  intro s y hy
  obtain ⟨-, -, -, hload⟩ := loadAddCopyWriteDestination
  obtain ⟨-, -, -, hlogic⟩ := logicWritesResultThenClearsFlag
  obtain ⟨-, hsum⟩ := addRegWritesSumAndCarry
  obtain ⟨-, -, hdiff⟩ := subtractionsWriteBorrowFirst
  obtain ⟨-, -, hshift⟩ := shiftsMoveOneBitThroughFlag
  obtain ⟨-, -, t₁, hcopy, hcopyV, -⟩ := hload s flagReg y 0
  obtain ⟨⟨t₂, hor, horV, -⟩, ⟨t₃, hand, handV, -⟩, t₄, hxor, hxorV, -⟩ := hlogic s flagReg y
  obtain ⟨t₅, hadd, haddV, -⟩ := hsum s flagReg y
  obtain ⟨⟨t₆, _, hsub, rfl, hsubV, -⟩, t₇, _, hsubn, rfl, hsubnV, -⟩ := hdiff s flagReg y
  obtain ⟨⟨t₈, _, hshr, rfl, hshrV, -⟩, t₉, _, hshl, rfl, hshlV, -⟩ := hshift s flagReg y
  rw [if_pos rfl] at hsubV hsubnV hshrV hshlV
  rw [if_neg hy] at hsubV hsubnV
  refine ⟨⟨t₁, hcopy, hcopyV⟩, ⟨t₂, hor, horV⟩, ⟨t₃, hand, handV⟩, ⟨t₄, hxor, hxorV⟩, ⟨t₅, hadd, haddV⟩, ⟨t₆, hsub, hsubV⟩,
    ⟨t₈, hshr, ?_⟩, ⟨t₇, hsubn, hsubnV⟩, ⟨t₉, hshl, ?_⟩⟩
  · exact BitVec.eq_of_toNat_eq (by rw [hshrV, Nat.mod_div_self]; rfl)
  · apply BitVec.eq_of_toNat_eq
    rw [hshlV, ← shiftLeftFlag_toNat, shiftLeftFlag, flagByte_toNat]
    split <;> rfl

end Sys2Proof.Proofs

namespace Sys2Proof.Machine

/-! ### Operands as numbers (`30_encoding.md` R93, `43_index_memory.md` R193, R194) -/

theorem zextAddr_toNat (nnn : Addr12) : (zextAddr nnn).toNat = nnn.toNat := BitVec.toNat_setWidth_of_le (by decide)

theorem zextByte_toNat (b : Byte) : (zextByte b).toNat = b.toNat := BitVec.toNat_setWidth_of_le (by decide)

/-- The largest glyph address, 0x50 + 5 * 255, has 16 bits: nothing wraps. -/
theorem glyphAddress_toNat (b : Byte) : (glyphAddress b).toNat = 0x50 + 5 * b.toNat := by
  have hb : b.toNat < 256 := b.isLt
  simp only [glyphAddress, BitVec.toNat_add, BitVec.toNat_mul, zextByte_toNat, BitVec.reduceToNat]
  omega

/-- A number below 256, as a decimal digit is, is kept by a byte. -/
theorem byte_toNat_ofNat {n : Nat} (h : n < 256) : (BitVec.ofNat 8 n).toNat = n := by
  rw [BitVec.toNat_ofNat, Nat.mod_eq_of_lt h]

/-! ### A byte inside and outside a stored list (`20_memory.md` R67) -/

theorem Memory.read_load_inside (m : Memory) {a k : Nat} {bs : List Byte} (hk : k < bs.length) (h : a + k < 4096) :
    (m.load a bs).read (a + k) = bs[k] := by
  rw [Memory.read_load, dif_pos ⟨by omega, by omega, h⟩]
  simp only [Nat.add_sub_cancel_left]

theorem Memory.read_load_outside (m : Memory) {a b : Nat} {bs : List Byte} (h : ¬(a ≤ b ∧ b < a + bs.length)) :
    (m.load a bs).read b = m.read b := by
  rw [Memory.read_load, dif_neg (by omega)]

theorem State.storeBlock_sameMemoryBut (s : State) {k : Nat} (hk : k ≤ 16) :
    SameMemoryBut s.index.toNat k s (s.storeBlock k) := fun a ha => by
  rw [State.readByte_storeBlock s hk, dif_neg (by omega)]

/-! ### The writers of `I` (`43_index_memory.md` R191 to R193) -/

theorem exec_setsIndex {i : Instr} {s : State} {w : Word} {n : Nat} (he : exec i s = .next (s.setIndex w).advance)
    (hw : w.toNat = n) : ∃ t, exec i s = .next t ∧ t.index.toNat = n ∧ t.pc = s.pc + 2 ∧ SameBut [.index] s t :=
  ⟨_, he, hw, rfl, ((SameBut.refl _ s).setIndex (by simp) w).advance⟩

/-! ### Accesses to memory, on each side of their bounds check (`20_memory.md` R68, `43_index_memory.md` R194 to R196) -/

/-- An instruction that could fault, and did not, moves on and changes only the piece it writes: `FAULT` is as it was. -/
theorem exec_accessFrame {i : Instr} {s t : State} {p : Piece} (he : exec i s = .next t) (hf : ownFault i s = none)
    (hpc : pcAfter i s = s.pc + 2 := by rfl) (hm : mayChange i = [p, .fault] := by rfl) :
    t.pc = s.pc + 2 ∧ SameBut [p] s t := by
  obtain ⟨u, hu, heff⟩ := exec_of_ownFault_none hf
  obtain rfl := Host.Outcome.next.inj (hu.symm.trans he)
  refine ⟨heff.pc.trans hpc, fun q hq => ?_⟩
  by_cases hfault : q = .fault
  · subst hfault
    exact heff.fault
  · exact heff.same q (by simpa [hm, hfault] using hq)

/-- Past its bounds check to-bcd stores the digits and moves on. -/
theorem exec_toBcd_inBounds {s : State} (h : s.index.toNat + 2 < 4096) (x : Reg) :
    exec (.toBcd x) s = .next { s with mem := s.mem.load s.index.toNat (bcdDigits (s.getV x)) }.advance :=
  congrArg Host.Outcome.next (s.inBounds_pos h _)

/-- Past its bounds check load-regs loads the block and moves on. -/
theorem exec_loadRegs_inBounds {s : State} {x : Reg} (h : s.index.toNat + x.val < 4096) :
    exec (.loadRegs x) s = .next (s.loadBlock (x.val + 1)).advance :=
  congrArg Host.Outcome.next (s.inBounds_pos h _)

end Sys2Proof.Machine

namespace Sys2Proof.Proofs

open Sys2Proof.Machine

/-- Settles O32: `I` takes the widened immediate, the sum modulo 2^16, or a glyph address, which 16 bits hold unmasked. -/
theorem indexWritersSetIndex : Obligations.IndexWritersSetIndex := by
  refine ⟨selectedBy_nnn 0xA fun _ => rfl, selectedBy_x 0xF 0x1E fun _ => rfl, selectedBy_x 0xF 0x29 fun _ => rfl,
    fun s x nnn => ⟨exec_setsIndex rfl (zextAddr_toNat nnn), exec_setsIndex rfl ?_, exec_setsIndex rfl (glyphAddress_toNat _)⟩⟩
  rw [BitVec.toNat_add, zextByte_toNat]

/-- Settles O33: the three digits fit a byte each, and the bounds check keeps their three places in memory. -/
theorem toBcdStoresThreeDigits : Obligations.ToBcdStoresThreeDigits := by
  refine ⟨selectedBy_x 0xF 0x33 fun _ => rfl, fun s x => ⟨fun h => ?_, fun h =>
    congrArg Host.Outcome.next (s.inBounds_neg h _)⟩⟩
  have he := exec_toBcd_inBounds h x
  have hbyte : (s.getV x).toNat < 256 := (s.getV x).isLt
  have hdigit (k : Nat) (hk : k < 3) : (s.mem.load s.index.toNat (bcdDigits (s.getV x))).read (s.index.toNat + k) =
      (bcdDigits (s.getV x))[k] := Memory.read_load_inside s.mem hk (by omega)
  refine ⟨_, he, ?_, ?_, ?_, fun a ha => ?_, exec_accessFrame he (if_neg (by omega))⟩
  · exact (congrArg BitVec.toNat (hdigit 0 (by decide))).trans (byte_toNat_ofNat (by omega))
  · exact (congrArg BitVec.toNat (hdigit 1 (by decide))).trans (byte_toNat_ofNat (by omega))
  · exact (congrArg BitVec.toNat (hdigit 2 (by decide))).trans (byte_toNat_ofNat (by omega))
  · exact Memory.read_load_outside s.mem ha

/-- Settles O34: the block of `x + 1` registers lies in memory as a whole, or the check raises before the first store. -/
theorem storeRegsStoresBlock : Obligations.StoreRegsStoresBlock := by
  refine ⟨selectedBy_x 0xF 0x55 fun _ => rfl, fun s x => ⟨fun h => ?_, fun h =>
    congrArg Host.Outcome.next (s.inBounds_neg h _)⟩⟩
  have he := exec_storeRegs_inBounds h
  exact ⟨_, he, fun r hr => State.readByte_storeBlock_reg h hr, s.storeBlock_sameMemoryBut (by omega),
    exec_accessFrame he (if_neg (by omega))⟩

/-- Settles O35: loading writes the first `x + 1` registers and no other, or the check raises before the first load. -/
theorem loadRegsLoadsBlock : Obligations.LoadRegsLoadsBlock := by
  refine ⟨selectedBy_x 0xF 0x65 fun _ => rfl, fun s x => ⟨fun h => ?_, fun h =>
    congrArg Host.Outcome.next (s.inBounds_neg h _)⟩⟩
  have he := exec_loadRegs_inBounds h
  obtain ⟨hpc, hsame⟩ := exec_accessFrame he (if_neg (by omega))
  refine ⟨_, he, fun r hr => ?_, exec_sameRegsBut he, hpc, hsame⟩
  have hle : r.val ≤ x.val := hr
  rw [State.getV_advance, State.getV_loadBlock s (by omega), if_pos (by omega)]

end Sys2Proof.Proofs

namespace Sys2Proof.Machine

/-! ### Drawing, on each side of its bounds check (`44_display.md` R212) -/

/-- An instruction that meets a fault of its own raises it and does nothing else. -/
theorem exec_of_ownFault_some {i : Instr} {s : State} {f : FaultRecord} (h : ownFault i s = some f) :
    exec i s = .next (s.faultedWith f.kind f.info) := by
  rcases execSpec i s with ⟨t, hf, -⟩ | ⟨g, hg, he⟩
  · exact absurd (h.symm.trans hf) nofun
  · obtain rfl := Option.some.inj (h.symm.trans hg)
    exact he

/-- A sprite without rows, or whose last byte is in memory, is drawn. -/
theorem exec_draw_inBounds {s : State} {n : BitVec 4} (h : n.toNat = 0 ∨ s.index.toNat + n.toNat - 1 < 4096) (x y : Reg) :
    exec (.draw x y n) s = .next (s.drawSprite x y n.toNat) := by
  by_cases hn : n = 0
  · subst hn
    rfl
  · have hpos : n.toNat ≠ 0 := fun h0 => hn (BitVec.eq_of_toNat_eq h0)
    have htop : s.effAddr (n.toNat - 1) < 4096 := by simp only [State.effAddr]; omega
    exact congrArg Host.Outcome.next ((if_neg hn).trans (s.inBounds_pos htop _))

/-- After a draw `VF` is 1 exactly when a set bit of the sprite met an on pixel. -/
theorem State.drawSprite_flag_eq_one_iff (s : State) (x y : Reg) {n : Nat} (hn : n ≤ 15) :
    (s.drawSprite x y n).getV flagReg = 1 ↔ ∃ r c, s.SpriteOn x y n r c ∧ s.pixel r c = true := by
  obtain ⟨-, -, hhit, hmiss, -⟩ := s.drawSprite_spec x y hn
  refine ⟨fun hone => ?_, hhit⟩
  by_contra hno
  exact absurd ((hmiss hno).symm.trans hone) (by decide)

/-- Where a sprite lands is decided by its two coordinates, `I` and memory. -/
theorem State.spriteOn_congr {s t : State} {x y : Reg} (hx : t.getV x = s.getV x) (hy : t.getV y = s.getV y)
    (hi : t.index = s.index) (hm : ∀ a, t.readByte a = s.readByte a) (n : Nat) (r : Fin 32) (c : Fin 64) :
    t.SpriteOn x y n r c ↔ s.SpriteOn x y n r c := by
  simp only [State.SpriteOn, hx, hy, hi, hm]

/-- A draw whose coordinates are not in `VF` leaves the sprite where it was, so that the next draw meets it there (R212 h). -/
theorem State.spriteOn_drawSprite (s : State) {x y : Reg} (hx : x ≠ flagReg) (hy : y ≠ flagReg) {n : Nat} (hn : n ≤ 15)
    (r : Fin 32) (c : Fin 64) : (s.drawSprite x y n).SpriteOn x y n r c ↔ s.SpriteOn x y n r c := by
  obtain ⟨-, -, -, -, hregs, hsame, -⟩ := s.drawSprite_spec x y hn
  exact State.spriteOn_congr (hregs x hx) (hregs y hy) (hsame .index (by decide)) (hsame .memory (by decide)) n r c

/-- Toggling a pixel twice, or leaving it twice, gives it back (R212 h). -/
theorem State.pixel_drawSprite_twice (s : State) {x y : Reg} (hx : x ≠ flagReg) (hy : y ≠ flagReg) {n : Nat} (hn : n ≤ 15)
    (r : Fin 32) (c : Fin 64) : ((s.drawSprite x y n).drawSprite x y n).pixel r c = s.pixel r c := by
  obtain ⟨hon, hoff, -⟩ := s.drawSprite_spec x y hn
  obtain ⟨hon', hoff', -⟩ := (s.drawSprite x y n).drawSprite_spec x y hn
  have hplace := s.spriteOn_drawSprite hx hy hn r c
  by_cases hbit : s.SpriteOn x y n r c
  · rw [hon' r c (hplace.mpr hbit), hon r c hbit, Bool.not_not]
  · rw [hoff' r c fun h => hbit (hplace.mp h), hoff r c hbit]

/-- On a place that was dark, the second draw meets exactly the pixels that the first has turned on (property S5). -/
theorem State.flag_drawSprite_twice_of_dark (s : State) {x y : Reg} (hx : x ≠ flagReg) (hy : y ≠ flagReg) {n : Nat}
    (hn : n ≤ 15) (hdark : ∀ r c, s.SpriteOn x y n r c → s.pixel r c = false) :
    ((s.drawSprite x y n).drawSprite x y n).getV flagReg = 1 ↔ ∃ r c, s.SpriteOn x y n r c := by
  obtain ⟨hon, -⟩ := s.drawSprite_spec x y hn
  have hlit : ∀ r c, s.SpriteOn x y n r c → (s.drawSprite x y n).pixel r c = true := fun r c hbit => by
    rw [hon r c hbit, hdark r c hbit, Bool.not_false]
  simp only [State.drawSprite_flag_eq_one_iff _ x y hn, s.spriteOn_drawSprite hx hy hn]
  exact exists₂_congr fun r c => and_iff_left_of_imp (hlit r c)

end Sys2Proof.Machine

namespace Sys2Proof.Proofs

open Sys2Proof.Machine

/-- Settles O37: clear installs the blank frame buffer and moves on. -/
theorem clearTurnsEveryPixelOff : Obligations.ClearTurnsEveryPixelOff :=
  ⟨selectedBy_word rfl, fun _ => ⟨_, rfl, FrameBuffer.pixel_blank, rfl, exec_sameBut (i := .clear) rfl⟩⟩

/-- Settles O38: past the bounds check the sprite is drawn as the laws of the screen say, and short of it the table's fault is
raised. -/
theorem drawXorsSpriteAndSetsCollision : Obligations.DrawXorsSpriteAndSetsCollision := by
  refine ⟨selectedBy_xyn 0xD fun _ _ _ => rfl, fun s x y n => ⟨fun h => ?_, fun hpos hpast => ?_⟩⟩
  · obtain ⟨hon, hoff, hhit, hmiss, hregs, hsame, hpc, -⟩ := s.drawSprite_spec x y (n := n.toNat) (by omega)
    exact ⟨_, exec_draw_inBounds h x y, hon, hoff, hhit, hmiss, hregs, hpc, hsame⟩
  · have hfault : ownFault (.draw x y n) s = some ⟨.outOfBounds, _⟩ := if_pos ⟨hpos, hpast⟩
    exact exec_of_ownFault_some hfault

/-- Settles O39: the first draw moves neither the sprite nor its place, since `x` and `y` are not `VF` and `I` and memory are
as before, so the second undoes it. -/
theorem drawTwiceRestoresScreen : Obligations.DrawTwiceRestoresScreen := by
  intro s x y n hx hy h
  have hn : n.toNat ≤ 15 := by omega
  obtain ⟨-, -, -, -, -, hsame, -⟩ := s.drawSprite_spec x y hn
  have hindex : (s.drawSprite x y n.toNat).index = s.index := hsame .index (by decide)
  refine ⟨_, ?_, s.pixel_drawSprite_twice hx hy hn, s.flag_drawSprite_twice_of_dark hx hy hn⟩
  rw [execAll_cons (exec_draw_inBounds h x y), execAll_cons (exec_draw_inBounds (hindex.symm ▸ h) x y), execAll]

end Sys2Proof.Proofs

namespace Sys2Proof.Machine

/-! ### The key skips, on each side of their index check (`45_keypad_timer_random.md` R232, R233) -/

/-- An instruction that writes nothing but the fault it could raise, and did not, moves `pc` by the table of R125, and that is
all. -/
theorem exec_movesPc_of_noFault {i : Instr} {s : State} (hf : ownFault i s = none) (hm : mayChange i = [.fault] := by rfl) :
    ∃ t, exec i s = .next t ∧ t.pc = pcAfter i s ∧ SameBut [] s t := by
  obtain ⟨t, ht, heff⟩ := exec_of_ownFault_none hf
  refine ⟨t, ht, heff.pc, fun p _ => ?_⟩
  by_cases hp : p = .fault
  · subst hp
    exact heff.fault
  · exact heff.same p (by simpa [hm] using hp)

/-- Both key skips: `pc` by the table of R125 for an index up to 15, else `OutOfBoundsAccess` with the index (D15). -/
theorem exec_keySkip {i : Instr} {s : State} {x : Reg}
    (hf : ownFault i s = if 15 < (s.getV x).toNat then some ⟨.outOfBounds, (s.getV x).setWidth 16⟩ else none)
    (hm : mayChange i = [.fault] := by rfl) :
    ((s.getV x).toNat ≤ 15 → ∃ t, exec i s = .next t ∧ t.pc = pcAfter i s ∧ SameBut [] s t) ∧
      (15 < (s.getV x).toNat → exec i s = .next (s.faultedWith .outOfBounds ((s.getV x).setWidth 16))) :=
  ⟨fun hle => exec_movesPc_of_noFault (hf.trans (if_neg (by omega))) hm,
    fun hgt => exec_of_ownFault_some (hf.trans (if_pos hgt))⟩

/-! ### Waiting for a key (`45_keypad_timer_random.md` R235) -/

theorem exec_waitKey_of_noKey {s : State} (h : s.keys = 0) (x : Reg) : exec (.waitKey x) s = .next s := by
  rcases s.pressedKey_cases with ⟨-, hnone⟩ | ⟨hne, -⟩
  · simp only [exec, execWaitKey, hnone]
  · exact absurd h hne

theorem exec_waitKey_of_pressedKey {s : State} {k : Nat} (h : s.pressedKey = some k) (x : Reg) :
    exec (.waitKey x) s = .next (s.setV x (BitVec.ofNat 8 k)).advance := by
  simp only [exec, execWaitKey, h]

/-- The key that `wait-key` reports is the only one that is down with none below it (D14). -/
theorem State.pressedKey_eq_some {s : State} {k : Nat} (hk : k < 16) (hdown : s.keyDown k = true)
    (hlow : ∀ j < k, s.keyDown j = false) : s.pressedKey = some k := by
  rcases s.pressedKey_spec with ⟨-, hup⟩ | ⟨j, hj, -, hjdown, hjlow⟩
  · exact absurd hdown (by simp [hup k hk])
  · rcases Nat.lt_trichotomy j k with hlt | rfl | hgt
    · exact absurd hjdown (by simp [hlow j hlt])
    · exact hj
    · exact absurd hdown (by simp [hjlow k hgt])

/-! ### A wait-key that polls (`40_cycle.md` R124, property S7) -/

/-- Fetch and decode read `pc` and memory only. -/
theorem State.nextInstr_congr {s t : State} (hpc : t.pc = s.pc) (hm : t.mem = s.mem) : t.nextInstr = s.nextInstr := by
  simp only [State.nextInstr, State.fetch, State.readByte, hpc, hm]

theorem State.nextInput_pending (s : State) : s.nextInput.pending = s.pending.tail := by
  cases h : s.pending <;> simp [State.nextInput, h]

/-- A listed input without a key, if there is one, is what the next step sees. -/
theorem State.nextInput_keys_of_listed {s : State} (hlisted : ∀ i ∈ s.pending, i.keys = 0) (hne : s.pending ≠ []) :
    s.nextInput.keys = 0 := by
  obtain ⟨i, rest, hp⟩ := List.exists_cons_of_ne_nil hne
  simp only [State.nextInput, hp]
  exact hlisted i (by simp [hp])

theorem runSteps_succ {s t : State} (h : step s = .next t) (n : Nat) : runSteps (n + 1) s = runSteps n t := by
  simp only [runSteps, h]

/-- The next `n` steps poll for a key into `V[x]` and see none. The key flags of the first are in the state, those of the
others listed; with no step to come the flags are left open. -/
structure PollsNoKey (x : Reg) (n : Nat) (s : State) : Prop where
  running : s.fault = none
  instr : s.nextInstr = .ok (.waitKey x)
  noKey : 0 < n → s.keys = 0
  listed : ∀ i ∈ s.pending, i.keys = 0
  enough : n ≤ s.pending.length + 1

section
variable {x : Reg} {n : Nat} {s : State}

/-- A poll that sees no key is a tick and nothing else. -/
theorem PollsNoKey.step_eq (h : PollsNoKey x (n + 1) s) : step s = .next s.tick.nextInput := by
  rw [step_of_nextInstr_ok h.running h.instr (exec_waitKey_of_noKey (h.noKey n.succ_pos) x), State.endStep_of_none h.running]

theorem PollsNoKey.next (h : PollsNoKey x (n + 1) s) : PollsNoKey x n s.tick.nextInput := by
  obtain ⟨hrun, hinstr, -, hlisted, henough⟩ := h
  refine ⟨by simp [hrun], ?_, fun hn => ?_, ?_, ?_⟩
  · rw [State.nextInstr_congr (s := s) (by simp) (by simp), hinstr]
  · refine State.nextInput_keys_of_listed hlisted fun hnil => ?_
    rw [State.tick_pending] at hnil
    rw [hnil, List.length_nil] at henough
    omega
  · rw [State.nextInput_pending]
    exact fun i hi => hlisted i (List.mem_of_mem_tail hi)
  · rw [State.nextInput_pending, List.length_tail, State.tick_pending]
    omega

theorem runSteps_of_pollsNoKey (h : PollsNoKey x n s) :
    ∃ t, runSteps n s = .next t ∧ t.pc = s.pc ∧ t.dt.toNat = s.dt.toNat - n ∧ t.st.toNat = s.st.toNat - n ∧
      SameBut [.dt, .st, .inputs] s t := by
  induction n generalizing s with
  | zero => exact ⟨s, rfl, rfl, rfl, rfl, .refl _ s⟩
  | succ n ih =>
    obtain ⟨t, ht, hpc, hdt, hst, hsame⟩ := ih h.next
    obtain ⟨hsame₁, hpc₁, -⟩ := s.endStep_same
    rw [State.endStep_of_none h.running] at hsame₁ hpc₁
    rw [State.nextInput_dt, State.tick_dt, countDown_toNat] at hdt
    rw [State.nextInput_st, State.tick_st, countDown_toNat] at hst
    exact ⟨t, (runSteps_succ h.step_eq n).trans ht, hpc.trans hpc₁, by omega, by omega, hsame₁.trans hsame⟩

end

end Sys2Proof.Machine

namespace Sys2Proof.Proofs

open Sys2Proof.Machine

/-- Settles O40: one register write, of the random byte masked bit by bit. -/
theorem randAndMasksRandomByte : Obligations.RandAndMasksRandomByte := by
  refine ⟨selectedBy_xkk 0xC fun _ _ => rfl, fun s x kk => ?_⟩
  obtain ⟨t, ht, hx, hframe⟩ := exec_writesReg (i := .randAnd x kk) (s := s) rfl
  exact ⟨t, ht, fun b _ => by rw [hx, BitVec.getLsbD_and], hframe⟩

/-- Settles O41: past the index check the table of R125 moves `pc` by the key's flag, and short of it the fault is raised. -/
theorem keySkipsTestKeyFlag : Obligations.KeySkipsTestKeyFlag := by
  refine ⟨selectedBy_x 0xE 0x9E fun _ => rfl, selectedBy_x 0xE 0xA1 fun _ => rfl, fun s x => ?_⟩
  obtain ⟨hskip, hfault⟩ := exec_keySkip (i := .skipIfPressed x) (s := s) rfl
  obtain ⟨hskip', hfault'⟩ := exec_keySkip (i := .skipIfNotPressed x) (s := s) rfl
  exact ⟨fun hle => ⟨hskip hle, hskip' hle⟩, fun hgt => ⟨hfault hgt, hfault' hgt⟩⟩

/-- Settles O42: with no flag set no key is reported; else the reported key is the lowest, which a byte holds. -/
theorem waitKeyTakesLowestOrStays : Obligations.WaitKeyTakesLowestOrStays := by
  refine ⟨selectedBy_x 0xF 0x0A fun _ => rfl, fun s x => ⟨fun hup => ?_, fun k hk hdown hlow => ?_⟩⟩
  · exact exec_waitKey_of_noKey (BitVec.eq_of_getLsbD_eq fun j hj => by simpa using hup j hj) x
  · have hkeys : s.keys ≠ 0 := fun h0 => by simp [h0] at hdown
    have he := exec_waitKey_of_pressedKey (State.pressedKey_eq_some hk hdown hlow) x
    obtain ⟨t, ht, hx, hframe⟩ := exec_writesReg he ⟨rfl, if_neg hkeys, rfl⟩
    exact ⟨t, ht, by rw [hx, byte_toNat_ofNat (by omega)], hframe⟩

/-- Settles O43: each poll is a tick that leaves a polling state behind, with one listed input less. -/
theorem waitKeyPollsUntilKey : Obligations.WaitKeyPollsUntilKey :=
  fun _ _ _ hrun hpc hbytes hkeys hlisted henough =>
    runSteps_of_pollsNoKey ⟨hrun, State.nextInstr_of_decodeBytes hpc hbytes, fun _ => hkeys, hlisted, henough⟩

/-- Settles O44: each instruction is one move between a register and a timer, and the tick counts down what it leaves. -/
theorem timerInstructionsMoveTimers : Obligations.TimerInstructionsMoveTimers := by
  refine ⟨selectedBy_x 0xF 0x07 fun _ => rfl, selectedBy_x 0xF 0x15 fun _ => rfl, selectedBy_x 0xF 0x18 fun _ => rfl,
    fun s x => ⟨?_, ?_, ?_⟩⟩
  · obtain ⟨t, ht, hx, hpc, hregs, hsame⟩ := exec_writesReg (i := .readDelay x) (s := s) rfl
    have hdt : t.dt = s.dt := hsame .dt (by decide)
    exact ⟨t, ht, hx, hpc, hregs, hsame, by rw [State.tick_dt, countDown_toNat, hdt]⟩
  · exact ⟨_, rfl, rfl, rfl, exec_sameBut (i := .setDelay x) rfl, countDown_toNat _⟩
  · exact ⟨_, rfl, rfl, rfl, exec_sameBut (i := .setSound x) rfl, countDown_toNat _⟩

/-- Settles O47: the case of `exec_withInputs` in which the key flags stay. -/
theorem randomByteReachesOnlyRandAnd : Obligations.RandomByteReachesOnlyRandAnd := by
  intro i s t b hi h
  obtain ⟨hkeys, -⟩ := exec_inputs h
  have hrnd : (∃ x kk, i = .randAnd x kk) → b = s.rnd := fun ⟨x, kk, hx⟩ => absurd hx (hi x kk)
  have ht : t.withInputs s.keys b = { t with rnd := b } := by rw [← hkeys]; rfl
  exact (exec_withInputs (fun _ => rfl) hrnd h).trans (congrArg _ ht)

end Sys2Proof.Proofs

namespace Sys2Proof.Machine

/-! ### A faulted core (`60_exceptions.md` R257) -/

theorem runSteps_of_fault {s : State} {f : FaultRecord} (h : s.fault = some f) (n : Nat) : runSteps n s = .next s := by
  induction n with
  | zero => rfl
  | succ n ih => rw [runSteps_succ (step_of_fault h), ih]

/-! ### The list of causes, by what fetch, decode and Execute answer (`60_exceptions.md` R251, R259) -/

/-- Where fetch or decode faults, theirs is the fault that the list gives. -/
theorem State.stepFault_of_nextInstr_error {s : State} {f : FaultRecord} (h : s.nextInstr = .error f) :
    s.stepFault = some f := by
  by_cases hpc : 4095 ≤ s.pc.toNat
  · rw [State.nextInstr_of_pc_ge hpc] at h
    obtain rfl := Except.error.inj h
    exact if_pos hpc
  · rw [State.stepFault, if_neg hpc]
    cases hword : decodeWord s.wordAtPc with
    | ok i => cases h.symm.trans ((s.nextInstr_ok_iff i).mpr ⟨by omega, hword⟩)
    | error e =>
      rw [State.nextInstr_of_unknown (by omega) hword] at h
      exact congrArg some (Except.error.inj h)

/-- Where fetch and decode answer an instruction, the list gives that instruction's own fault, or none. -/
theorem State.stepFault_of_nextInstr_ok {s : State} {i : Instr} (h : s.nextInstr = .ok i) : s.stepFault = ownFault i s := by
  obtain ⟨hpc, hword⟩ := (s.nextInstr_ok_iff i).mp h
  rw [State.stepFault, if_neg (by omega), hword]

/-- On a running core an instruction leaves in `FAULT` its own fault, or none. -/
theorem exec_fault {i : Instr} {s t : State} (hrun : s.fault = none) (h : exec i s = .next t) : t.fault = ownFault i s := by
  rcases exec_cases h with ⟨hf, heff⟩ | ⟨f, hf, rfl⟩
  · rw [heff.fault, hrun, hf]
  · exact hf.symm

/-- The end of a step neither raises nor clears a fault (`40_cycle.md` R127). -/
@[simp] theorem State.endStep_fault (s : State) : s.endStep.fault = s.fault := by
  obtain ⟨hsame, -⟩ := s.endStep_same
  exact hsame .fault (by decide)

end Sys2Proof.Machine

namespace Sys2Proof.Proofs

open Sys2Proof.Machine

/-- Settles O10: the list and the step ask in one order: fetch and decode first, and only then the instruction's own check. -/
theorem stepFaultsExactlyAsListed : Obligations.StepFaultsExactlyAsListed := by
  intro s t hrun hstep
  rcases step_cases hstep with ⟨f, hf, -⟩ | ⟨f, -, hi, rfl⟩ | ⟨i, u, -, hi, hu, rfl⟩
  · cases hrun.symm.trans hf
  · exact (State.stepFault_of_nextInstr_error hi).symm
  · rw [State.endStep_fault, exec_fault hrun hu, State.stepFault_of_nextInstr_ok hi]

/-- Settles O18: a bad ROM leaves the glyph load alone in memory, and the fault it records makes every step wait. -/
theorem badRomResetNeverSteps : Obligations.BadRomResetNeverSteps := by
  intro glyphs rom hglyphs hbad
  have hrom : romWellFormed rom = false := Bool.eq_false_iff.mpr fun hgood => by
    obtain ⟨hmin, hmax⟩ := (romWellFormed_iff rom).mp hgood
    omega
  rw [State.resetRom_of_invalid hrom]
  exact ⟨rfl, fun _ hj => read_glyphMemory_glyph hglyphs hj, fun _ _ ha => read_glyphMemory_other hglyphs ha, rfl,
    runSteps_of_fault rfl⟩

/-- Settles O8: each request is ignored, so the next one meets the same state. -/
theorem faultedCoreIgnoresSteps : Obligations.FaultedCoreIgnoresSteps :=
  fun _ _ n hfault => runSteps_of_fault hfault n

end Sys2Proof.Proofs

namespace Sys2Proof.Machine

/-! ### A jump to itself (`70_reset_and_hazards.md` R307, D19) -/

theorem encode_jump_toNat (nnn : Addr12) : (encode (.jump nnn)).toNat = 0x1000 + nnn.toNat := by
  rw [encode, wordNNN, BitVec.toNat_append, ← Nat.shiftLeft_add_eq_or_of_lt nnn.isLt]
  rfl

/-- A jump to the address it stands at changes nothing. -/
theorem exec_jump_self {s : State} {nnn : Addr12} (h : zextAddr nnn = s.pc) : exec (.jump nnn) s = .next s := by
  show Host.Outcome.next (s.setPc (zextAddr nnn)) = .next s
  rw [h]
  rfl

section
variable {s : State}

/-- The target of the jump that an end state stands at is `pc` itself, which fits the 12 bits of the operand. -/
theorem State.Ended.zextAddr_pc (h : s.Ended) : zextAddr (s.pc.setWidth 12) = s.pc := by
  obtain ⟨-, hpc, -⟩ := h
  refine BitVec.eq_of_toNat_eq ?_
  rw [zextAddr_toNat, BitVec.toNat_setWidth, Nat.mod_eq_of_lt (by omega)]

/-- The bytes at `pc` of an end state are the encoding of a jump to `pc`, so that is what fetch and decode answer. -/
theorem State.Ended.nextInstr (h : s.Ended) : s.nextInstr = .ok (.jump (s.pc.setWidth 12)) := by
  have haddr := h.zextAddr_pc
  obtain ⟨-, hpc, hbytes⟩ := h
  refine (s.nextInstr_ok_iff _).mpr ⟨by omega, decodeWord_ok_iff.mpr (BitVec.eq_of_toNat_eq ?_)⟩
  rw [encode_jump_toNat, ← zextAddr_toNat, haddr, State.wordAtPc_eq, wordOfBytes_toNat, hbytes]

/-- The step from an end state is a tick and the next input. -/
theorem State.Ended.step_eq (h : s.Ended) : step s = .next s.tick.nextInput := by
  have ⟨hrun, _⟩ := h
  rw [step_of_nextInstr_ok hrun h.nextInstr (exec_jump_self h.zextAddr_pc), State.endStep_of_none hrun]

/-- Whether a run has ended depends on `FAULT`, `pc` and memory only. -/
theorem State.Ended.congr {t : State} (h : s.Ended) (hfault : t.fault = s.fault) (hpc : t.pc = s.pc) (hmem : t.mem = s.mem) :
    t.Ended := by
  simpa only [State.Ended, hfault, hpc, State.readByte_congr hmem] using h

end

end Sys2Proof.Machine

namespace Sys2Proof.Proofs

open Sys2Proof.Machine

/-- Settles O49: the jump leaves the state as it is, so its step is the tick and the next input, and neither moves what makes
the state an end state. -/
theorem endStateOnlyCountsDown : Obligations.EndStateOnlyCountsDown := by
  intro s h
  have ⟨hrun, _⟩ := h
  obtain ⟨hsame, hpc, hmem, -⟩ := s.endStep_same
  rw [State.endStep_of_none hrun] at hsame hpc hmem
  refine ⟨_, h.step_eq, h.congr (by simp) hpc hmem, hpc, ?_, ?_, hsame⟩
  · rw [State.nextInput_dt, State.tick_dt, countDown_toNat]
  · rw [State.nextInput_st, State.tick_st, countDown_toNat]

end Sys2Proof.Proofs
